-- ==== Sys2Proof/Word.lean ====
section
/-! DEFINITION. The widths of spec/00_scope.md rule R7 as types. -/

namespace Sys2Proof

/-- A register cell, a data-memory cell, an ALU operand or an ALU result: 8 bits (R7 `XLEN`). It is
also a data-memory address (spec/20_memory.md R61). -/
abbrev Byte := BitVec 8

/-- The index of a register cell: 4 bits, 0 to 15 (R7 `NREG`, spec/30_encoding.md R92). -/
abbrev RegIx := BitVec 4

/-- A program address: 12 bits (R7 `PA_BITS`). -/
abbrev Addr := BitVec 12

/-- An instruction word: 18 bits (R7 `ILEN`). -/
abbrev Word := BitVec 18

/-- The opcode field: 6 bits (R7 `OPC_BITS`). -/
abbrev Opcode := BitVec 6

end Sys2Proof
end

