-- ==== Sys2Proof/Machine/Flags.lean ====
section
/-! DEFINITION. The flag computations of spec/40_pipeline_engine.md R152 and R153. -/

namespace Sys2Proof.Machine

/-- A zero and a carry flag. -/
structure Flags where
  z : Bool
  c : Bool
  deriving DecidableEq, Repr

/-- The zero flag: "result's low 8 bits all zero" (R153). -/
def zeroFlag (res : Byte) : Bool := decide (res = 0#8)

/-- The carry of an addition: bit 8 of the unmasked sum, 0 to 510 (R153). -/
def addCarry (a b : Byte) : Bool := decide (256 ≤ a.toNat + b.toNat)

/-- The carry of a subtraction: bit 8 of the two's-complement difference, the borrow (R153). -/
def subBorrow (a b : Byte) : Bool := decide ((a.toNat : Int) - (b.toNat : Int) < 0)

/-- The flags of an addition (R152 `ADD`). -/
def addFlags (a b res : Byte) : Flags := ⟨zeroFlag res, addCarry a b⟩

/-- The flags of a subtraction (R152 `SUB`). -/
def subFlags (a b res : Byte) : Flags := ⟨zeroFlag res, subBorrow a b⟩

/-- The flags of `AND`, `OR`, `XOR`: the unmasked result has no bit 8 (R153). -/
def logicFlags (res : Byte) : Flags := ⟨zeroFlag res, false⟩

end Sys2Proof.Machine
end

