-- ==== Sys2Proof/Machine/Signals.lean ====
section
/-! DEFINITION. The control signals of spec/40_pipeline_engine.md R140: closed enumerations, so that no
unrecognized selector value exists (spec/60_exceptions.md R262). -/

namespace Sys2Proof.Machine

/-- `alu_op`, the nine ALU operations (R140, R152). -/
inductive AluOp where
  | add
  | sub
  | and
  | or
  | xor
  | passA
  | passB
  | shl
  | sar
  deriving DecidableEq, Repr

/-- `b_sel`, the operand B multiplexer (R140, R151). -/
inductive BSel where
  | reg
  | imm
  deriving DecidableEq, Repr

/-- `wsel`, the destination select: `MEM` marks a load (R140). -/
inductive WSel where
  | alu
  | mem
  deriving DecidableEq, Repr

/-- `br`, the kind of control transfer (R140). -/
inductive TransferKind where
  | none
  | abs
  | rel
  deriving DecidableEq, Repr

/-- `cond`, the condition of a transfer (R140). -/
inductive Cond where
  | always
  | z
  | nz
  deriving DecidableEq, Repr

/-- The control set (R140). -/
structure Ctl where
  aluOp : AluOp
  bSel : BSel
  rwe : Bool
  wsel : WSel
  mwe : Bool
  br : TransferKind
  cond : Cond
  deriving DecidableEq, Repr

end Sys2Proof.Machine
end

