-- ==== Sys2Proof/Machine/Alu.lean ====
section
/-! DEFINITION. The ALU (spec/40_pipeline_engine.md R152). The exact value is computed on integers and
narrowed to 8 bits at the end, as the spec writes it (spec/00_scope.md R14). -/

namespace Sys2Proof.Machine

/-- The 8-bit result of each operation (R152). Shift amounts are the whole 8-bit operand B, not
reduced (spec/41_alu_instructions.md R217); the division of `SAR` rounds toward minus infinity. -/
def aluResult (op : AluOp) (a b : Byte) : Byte :=
  match op with
  | .add => BitVec.ofNat 8 (a.toNat + b.toNat)
  | .sub => BitVec.ofInt 8 ((a.toNat : Int) - (b.toNat : Int))
  | .and => a &&& b
  | .or => a ||| b
  | .xor => a ^^^ b
  | .passA => a
  | .passB => b
  | .shl => BitVec.ofNat 8 (a.toNat * 2 ^ b.toNat)
  | .sar => BitVec.ofInt 8 (a.toInt.fdiv (2 ^ b.toNat))

/-- The raw flag outputs; none for the operations whose row of R152 says they set no flags. -/
def aluFlags (op : AluOp) (a b : Byte) : Option Flags :=
  match op with
  | .add => some (addFlags a b (aluResult .add a b))
  | .sub => some (subFlags a b (aluResult .sub a b))
  | .and => some (logicFlags (aluResult .and a b))
  | .or => some (logicFlags (aluResult .or a b))
  | .xor => some (logicFlags (aluResult .xor a b))
  | .passA => none
  | .passB => none
  | .shl => none
  | .sar => none

/-- `e_fwe`: the flag write enable (R153). -/
def flagWriteEnable (op : AluOp) : Bool :=
  match op with
  | .add => true
  | .sub => true
  | .and => true
  | .or => true
  | .xor => true
  | .passA => false
  | .passB => false
  | .shl => false
  | .sar => false

end Sys2Proof.Machine
end

