-- ==== Sys2Proof/Config.lean ====
section
/-! DEFINITION. The fixed parameters of the engine that are numbers, not widths (spec/00_scope.md R7, R8).
The engine has one configuration (R2). The spec leaves no value open that an instruction produces; the one
free value is the assembler's. -/

namespace Sys2Proof.Config

/-- `NUM_OPCODES`: opcodes 0 to 26 have a descriptor (spec/00_scope.md R8, spec/30_encoding.md R101). -/
abbrev numOpcodes : Nat := 27

/-- `DMEM_CELLS`: data-memory addresses are 0 to 255 (spec/20_memory.md R61). -/
abbrev dataCells : Nat := 256

/-- The longest program `reset` accepts: program addresses are 12 bits (spec/20_memory.md R62). -/
abbrev maxProgramLength : Nat := 4096

/-- What a data-memory cell that no entry lists reads as: every cell is 0 after `reset`
(spec/10_state.md R39). -/
abbrev unlistedByte : Byte := 0#8

/-- The shortest label name the assembler accepts (spec/30_encoding.md R112, spec/90_conflicts.md C1). -/
abbrev minLabelLength : Nat := 3

/-- DESIGN CHOICE, a free value (log entry 17): the 12-bit program address (spec/00_scope.md R7 `PA_BITS`) of
a label that the given number of instructions, 4096 or more, precede. The spec states none. -/
opaque labelAddressBeyond : Nat → Addr

end Sys2Proof.Config
end

