-- ==== Sys2Proof/Syntax.lean ====
section
/-! DEFINITION. The 27 instructions of spec/30_encoding.md R101, one constructor per row of the table.
`RR` and `RI` name the register and the immediate form of a mnemonic (R93).

A register index, an immediate and an absolute address are held at their field widths. The operand of a
relative branch is the integer the spec speaks of, -2048 to 2047 (R92 SignedAddress); only its encoding
is a 12-bit field (log entry 11). -/

namespace Sys2Proof

/-- One instruction of the VPS ISA. -/
inductive Instr where
  /-- `nop` (R200). -/
  | nop
  /-- `mov rd rs` (R201). -/
  | movRR (rd rs : RegIx)
  /-- `mov rd imm8` (R202). -/
  | movRI (rd : RegIx) (imm : Byte)
  /-- `add rd rs` (R203). -/
  | addRR (rd rs : RegIx)
  /-- `add rd imm8` (R204). -/
  | addRI (rd : RegIx) (imm : Byte)
  /-- `sub rd rs` (R205). -/
  | subRR (rd rs : RegIx)
  /-- `sub rd imm8` (R206). -/
  | subRI (rd : RegIx) (imm : Byte)
  /-- `and rd rs` (R207). -/
  | andRR (rd rs : RegIx)
  /-- `and rd imm8` (R208). -/
  | andRI (rd : RegIx) (imm : Byte)
  /-- `or rd rs` (R209). -/
  | orRR (rd rs : RegIx)
  /-- `or rd imm8` (R210). -/
  | orRI (rd : RegIx) (imm : Byte)
  /-- `xor rd rs` (R211). -/
  | xorRR (rd rs : RegIx)
  /-- `xor rd imm8` (R212). -/
  | xorRI (rd : RegIx) (imm : Byte)
  /-- `shl rd rs` (R213). -/
  | shlRR (rd rs : RegIx)
  /-- `shl rd imm8` (R214). -/
  | shlRI (rd : RegIx) (imm : Byte)
  /-- `sar rd rs` (R215). -/
  | sarRR (rd rs : RegIx)
  /-- `sar rd imm8` (R216). -/
  | sarRI (rd : RegIx) (imm : Byte)
  /-- `ld rd rs` (R231). -/
  | ldRR (rd rs : RegIx)
  /-- `ld rd imm8` (R232). -/
  | ldRI (rd : RegIx) (imm : Byte)
  /-- `st rd rs` (R233). -/
  | stRR (rd rs : RegIx)
  /-- `st rd imm8` (R234). -/
  | stRI (rd : RegIx) (imm : Byte)
  /-- `jmp a12` (R241). -/
  | jmp (a : Addr)
  /-- `jz a12` (R242). -/
  | jz (a : Addr)
  /-- `jnz a12` (R243). -/
  | jnz (a : Addr)
  /-- `br s12` (R244). -/
  | br (s : Int)
  /-- `bz s12` (R245). -/
  | bz (s : Int)
  /-- `bnz s12` (R246). -/
  | bnz (s : Int)
  deriving DecidableEq, Repr

end Sys2Proof
end

