-- ==== Sys2Proof/WellFormed.lean ====
section
/-! DEFINITION. What a well-formed instruction and a well-formed program are: the operand ranges of
spec/30_encoding.md R92 that the operand types do not already give, and rule R106. -/

namespace Sys2Proof

/-- The range of a SignedAddress operand (R92): -2048 to 2047. -/
def signedAddressOk (v : Int) : Bool := decide (-2048 ≤ v) && decide (v ≤ 2047)

/-- Every operand lies in its kind's range (R92). -/
def Instr.wf : Instr → Bool
  | .nop => true
  | .movRR _ _ => true
  | .movRI _ _ => true
  | .addRR _ _ => true
  | .addRI _ _ => true
  | .subRR _ _ => true
  | .subRI _ _ => true
  | .andRR _ _ => true
  | .andRI _ _ => true
  | .orRR _ _ => true
  | .orRI _ _ => true
  | .xorRR _ _ => true
  | .xorRI _ _ => true
  | .shlRR _ _ => true
  | .shlRI _ _ => true
  | .sarRR _ _ => true
  | .sarRI _ _ => true
  | .ldRR _ _ => true
  | .ldRI _ _ => true
  | .stRR _ _ => true
  | .stRI _ _ => true
  | .jmp _ => true
  | .jz _ => true
  | .jnz _ => true
  | .br s => signedAddressOk s
  | .bz s => signedAddressOk s
  | .bnz s => signedAddressOk s

/-- The opcode of a word is below 27 (R102, R106). -/
def wordDefined (w : Word) : Bool := decide (w.toNat / 4096 < Config.numOpcodes)

/-- A program is well formed when it has at most 4096 words and every word has a descriptor (R106). -/
def programWf (p : List Word) : Bool :=
  decide (p.length ≤ Config.maxProgramLength) && p.all wordDefined

end Sys2Proof
end

