-- ==== Sys2Proof/Decode.lean ====
section
/-! DEFINITION. The decoder, the encoder and the descriptor table (spec/30_encoding.md sections 1 to 3). -/

namespace Sys2Proof

/-- Bits 17 to 12 (R91, R99: `(encoding >> 12) & 0x3F`). -/
def opcodeOf (w : Word) : Opcode := w.extractLsb' 12 6

/-- The cell index in bits 11 to 8 (R93). -/
def fieldRd (w : Word) : RegIx := w.extractLsb' 8 4

/-- The cell index in bits 7 to 4 (R93). -/
def fieldRs (w : Word) : RegIx := w.extractLsb' 4 4

/-- The immediate in bits 7 to 0, unsigned (R93, R96). -/
def fieldImm (w : Word) : Byte := w.extractLsb' 0 8

/-- The 12 operand bits as an unsigned program address (R93, R97). -/
def fieldAddr (w : Word) : Addr := w.extractLsb' 0 12

/-- The 12 operand bits read as two's complement, `sext_12` (R92, R98). -/
def fieldSigned (w : Word) : Int := (fieldAddr w).toInt

/-- Why a word has no instruction: R261's `DecodeError`, which carries the opcode. Whoever meets it stops:
safe, since the spec defines nothing after it. -/
inductive DecodeError where
  /-- No descriptor has this opcode: 27 to 63 (R102). -/
  | noDescriptor (opcode : Opcode)
  deriving DecidableEq, Repr

/-- The decoder: the opcode alone selects the descriptor (R99), its format says which fields are
operands (R93), and unused bits are ignored (R100). Total: every other opcode is rejected (R102). -/
def decode (w : Word) : Except DecodeError Instr :=
  match (opcodeOf w).toNat with
  | 0 => .ok .nop
  | 1 => .ok (.movRR (fieldRd w) (fieldRs w))
  | 2 => .ok (.movRI (fieldRd w) (fieldImm w))
  | 3 => .ok (.addRR (fieldRd w) (fieldRs w))
  | 4 => .ok (.addRI (fieldRd w) (fieldImm w))
  | 5 => .ok (.subRR (fieldRd w) (fieldRs w))
  | 6 => .ok (.subRI (fieldRd w) (fieldImm w))
  | 7 => .ok (.andRR (fieldRd w) (fieldRs w))
  | 8 => .ok (.andRI (fieldRd w) (fieldImm w))
  | 9 => .ok (.orRR (fieldRd w) (fieldRs w))
  | 10 => .ok (.orRI (fieldRd w) (fieldImm w))
  | 11 => .ok (.xorRR (fieldRd w) (fieldRs w))
  | 12 => .ok (.xorRI (fieldRd w) (fieldImm w))
  | 13 => .ok (.shlRR (fieldRd w) (fieldRs w))
  | 14 => .ok (.shlRI (fieldRd w) (fieldImm w))
  | 15 => .ok (.sarRR (fieldRd w) (fieldRs w))
  | 16 => .ok (.sarRI (fieldRd w) (fieldImm w))
  | 17 => .ok (.ldRR (fieldRd w) (fieldRs w))
  | 18 => .ok (.ldRI (fieldRd w) (fieldImm w))
  | 19 => .ok (.stRR (fieldRd w) (fieldRs w))
  | 20 => .ok (.stRI (fieldRd w) (fieldImm w))
  | 21 => .ok (.jmp (fieldAddr w))
  | 22 => .ok (.jz (fieldAddr w))
  | 23 => .ok (.jnz (fieldAddr w))
  | 24 => .ok (.br (fieldSigned w))
  | 25 => .ok (.bz (fieldSigned w))
  | 26 => .ok (.bnz (fieldSigned w))
  | _ => .error (.noDescriptor (opcodeOf w))

/-- The opcode above its 12 operand bits: `(opcode << 12) | operands` (R91, R95). -/
def pack (op : Opcode) (operands : Nat) : Word := BitVec.ofNat 18 (op.toNat * 4096 + operands)

/-- Format `N`: the unused bits are written as 0 (R93, R95). -/
def packN (op : Opcode) : Word := pack op 0

/-- Format `RR`: `rd` at offset 8, `rs` at offset 4, bits 3 to 0 written as 0 (R93, R95). -/
def packRR (op : Opcode) (rd rs : RegIx) : Word := pack op (rd.toNat * 256 + rs.toNat * 16)

/-- Format `RI`: `rd` at offset 8, `imm8` at offset 0 (R93, R95). -/
def packRI (op : Opcode) (rd : RegIx) (imm : Byte) : Word := pack op (rd.toNat * 256 + imm.toNat)

/-- Format `A`: `a12` at offset 0 (R93, R95). -/
def packA (op : Opcode) (a : Addr) : Word := pack op a.toNat

/-- Format `S`: the stored field is the value mod 4096 (R92, R95). -/
def packS (op : Opcode) (s : Int) : Word := pack op (s % 4096).toNat

/-- The encoder: the canonical word of an instruction (R95, R101). -/
def encode : Instr → Word
  | .nop => packN 0#6
  | .movRR rd rs => packRR 1#6 rd rs
  | .movRI rd imm => packRI 2#6 rd imm
  | .addRR rd rs => packRR 3#6 rd rs
  | .addRI rd imm => packRI 4#6 rd imm
  | .subRR rd rs => packRR 5#6 rd rs
  | .subRI rd imm => packRI 6#6 rd imm
  | .andRR rd rs => packRR 7#6 rd rs
  | .andRI rd imm => packRI 8#6 rd imm
  | .orRR rd rs => packRR 9#6 rd rs
  | .orRI rd imm => packRI 10#6 rd imm
  | .xorRR rd rs => packRR 11#6 rd rs
  | .xorRI rd imm => packRI 12#6 rd imm
  | .shlRR rd rs => packRR 13#6 rd rs
  | .shlRI rd imm => packRI 14#6 rd imm
  | .sarRR rd rs => packRR 15#6 rd rs
  | .sarRI rd imm => packRI 16#6 rd imm
  | .ldRR rd rs => packRR 17#6 rd rs
  | .ldRI rd imm => packRI 18#6 rd imm
  | .stRR rd rs => packRR 19#6 rd rs
  | .stRI rd imm => packRI 20#6 rd imm
  | .jmp a => packA 21#6 a
  | .jz a => packA 22#6 a
  | .jnz a => packA 23#6 a
  | .br s => packS 24#6 s
  | .bz s => packS 25#6 s
  | .bnz s => packS 26#6 s

/-- The host's window on the decoder: the word's bits, numbered as the table numbers them. A number
that does not fit in 18 bits is no word of this machine (R90) and is refused (log entry 10). -/
def decodeTableWord (nbits w : Nat) : Option Instr :=
  if w % 2 ^ nbits < 2 ^ 18 then
    match decode (BitVec.ofNat 18 (w % 2 ^ nbits)) with
    | .ok i => some i
    | .error _ => none
  else none

/-! ### The descriptor table, as the assembler uses it (R18, R92, R93, R101) -/

/-- The four operand kinds (R92). -/
inductive OperandKind where
  | register
  | immediate
  | unsignedAddress
  | signedAddress
  deriving DecidableEq, Repr

/-- The field width of an operand kind (R92). -/
def OperandKind.width : OperandKind → Nat
  | .register => 4
  | .immediate => 8
  | .unsignedAddress => 12
  | .signedAddress => 12

/-- The range of an operand kind's value (R92, R114). -/
def OperandKind.inRange (k : OperandKind) (v : Int) : Bool :=
  match k with
  | .register => decide (0 ≤ v) && decide (v ≤ 15)
  | .immediate => decide (0 ≤ v) && decide (v ≤ 255)
  | .unsignedAddress => decide (0 ≤ v) && decide (v ≤ 4095)
  | .signedAddress => signedAddressOk v

/-- One operand of a descriptor: its kind and its bit offset (R93). -/
structure OperandField where
  kind : OperandKind
  offset : Nat
  deriving DecidableEq, Repr

/-- The five formats of R93 as lists of operand fields in assembly order. -/
abbrev formatN : List OperandField := []

/-- Format `RR` (R93). -/
abbrev formatRR : List OperandField := [⟨.register, 8⟩, ⟨.register, 4⟩]

/-- Format `RI` (R93). -/
abbrev formatRI : List OperandField := [⟨.register, 8⟩, ⟨.immediate, 0⟩]

/-- Format `A` (R93). -/
abbrev formatA : List OperandField := [⟨.unsignedAddress, 0⟩]

/-- Format `S` (R93). -/
abbrev formatS : List OperandField := [⟨.signedAddress, 0⟩]

/-- One row of the instruction table (R18 "descriptor", R101). -/
structure Descriptor where
  mnemonic : String
  opcode : Nat
  fields : List OperandField
  deriving DecidableEq, Repr

/-- The instruction table of R101, in table order: the position is the opcode. -/
def descriptors : List Descriptor := [
  ⟨"nop", 0, formatN⟩,
  ⟨"mov", 1, formatRR⟩, ⟨"mov", 2, formatRI⟩,
  ⟨"add", 3, formatRR⟩, ⟨"add", 4, formatRI⟩,
  ⟨"sub", 5, formatRR⟩, ⟨"sub", 6, formatRI⟩,
  ⟨"and", 7, formatRR⟩, ⟨"and", 8, formatRI⟩,
  ⟨"or", 9, formatRR⟩, ⟨"or", 10, formatRI⟩,
  ⟨"xor", 11, formatRR⟩, ⟨"xor", 12, formatRI⟩,
  ⟨"shl", 13, formatRR⟩, ⟨"shl", 14, formatRI⟩,
  ⟨"sar", 15, formatRR⟩, ⟨"sar", 16, formatRI⟩,
  ⟨"ld", 17, formatRR⟩, ⟨"ld", 18, formatRI⟩,
  ⟨"st", 19, formatRR⟩, ⟨"st", 20, formatRI⟩,
  ⟨"jmp", 21, formatA⟩, ⟨"jz", 22, formatA⟩, ⟨"jnz", 23, formatA⟩,
  ⟨"br", 24, formatS⟩, ⟨"bz", 25, formatS⟩, ⟨"bnz", 26, formatS⟩]

/-- R95, the same for every descriptor: `(opcode << 12) | Σ (masked operand value << its offset)`. -/
def encodeOperands : List OperandField → List Int → Nat
  | f :: fs, v :: vs => (v % 2 ^ f.kind.width).toNat * 2 ^ f.offset + encodeOperands fs vs
  | _, _ => 0

/-- The word a descriptor and its operand values build (R95). -/
def encodeDescriptor (d : Descriptor) (vs : List Int) : Word :=
  BitVec.ofNat 18 (d.opcode * 4096 + encodeOperands d.fields vs)

/-- Every operand value is in its field's range, one value per field (R114). -/
def operandsInRange : List OperandField → List Int → Bool
  | [], [] => true
  | f :: fs, v :: vs => f.kind.inRange v && operandsInRange fs vs
  | _, _ => false

/-- The opcode number of an instruction: its position in the table (R101). -/
def Instr.opcode : Instr → Nat
  | .nop => 0
  | .movRR _ _ => 1
  | .movRI _ _ => 2
  | .addRR _ _ => 3
  | .addRI _ _ => 4
  | .subRR _ _ => 5
  | .subRI _ _ => 6
  | .andRR _ _ => 7
  | .andRI _ _ => 8
  | .orRR _ _ => 9
  | .orRI _ _ => 10
  | .xorRR _ _ => 11
  | .xorRI _ _ => 12
  | .shlRR _ _ => 13
  | .shlRI _ _ => 14
  | .sarRR _ _ => 15
  | .sarRI _ _ => 16
  | .ldRR _ _ => 17
  | .ldRI _ _ => 18
  | .stRR _ _ => 19
  | .stRI _ _ => 20
  | .jmp _ => 21
  | .jz _ => 22
  | .jnz _ => 23
  | .br _ => 24
  | .bz _ => 25
  | .bnz _ => 26

/-- The operand values of an instruction in assembly order (R93). -/
def Instr.operands : Instr → List Int
  | .nop => []
  | .movRR rd rs => [rd.toNat, rs.toNat]
  | .movRI rd imm => [rd.toNat, imm.toNat]
  | .addRR rd rs => [rd.toNat, rs.toNat]
  | .addRI rd imm => [rd.toNat, imm.toNat]
  | .subRR rd rs => [rd.toNat, rs.toNat]
  | .subRI rd imm => [rd.toNat, imm.toNat]
  | .andRR rd rs => [rd.toNat, rs.toNat]
  | .andRI rd imm => [rd.toNat, imm.toNat]
  | .orRR rd rs => [rd.toNat, rs.toNat]
  | .orRI rd imm => [rd.toNat, imm.toNat]
  | .xorRR rd rs => [rd.toNat, rs.toNat]
  | .xorRI rd imm => [rd.toNat, imm.toNat]
  | .shlRR rd rs => [rd.toNat, rs.toNat]
  | .shlRI rd imm => [rd.toNat, imm.toNat]
  | .sarRR rd rs => [rd.toNat, rs.toNat]
  | .sarRI rd imm => [rd.toNat, imm.toNat]
  | .ldRR rd rs => [rd.toNat, rs.toNat]
  | .ldRI rd imm => [rd.toNat, imm.toNat]
  | .stRR rd rs => [rd.toNat, rs.toNat]
  | .stRI rd imm => [rd.toNat, imm.toNat]
  | .jmp a => [a.toNat]
  | .jz a => [a.toNat]
  | .jnz a => [a.toNat]
  | .br s => [s]
  | .bz s => [s]
  | .bnz s => [s]

end Sys2Proof
end

