-- ==== Sys2Proof/Machine/State.lean ====
section
/-! DEFINITION. Everything the engine remembers between two clocks (spec/10_state.md), plus the three
policy inputs and the bound program, which the host supplies and a step reads (log entries 3 and 4). -/

namespace Sys2Proof.Machine

/-- The register file `x`: 16 independent cells of 8 bits (R20, R21). -/
abbrev RegFile := Vector Byte 16

/-- The data memory `DM` (spec/20_memory.md R61) as (address, byte) entries; an address that has no entry
reads as `Config.unlistedByte` (log entry 14). -/
abbrev Memory := List Host.Cell

/-- Stage register set `F`: the program counter (R26). -/
structure FetchRegs where
  pc : Addr
  deriving DecidableEq, Repr

/-- The stage register sets `D` and `E`, which have the same three fields (R27, R28): the word, the
address it was fetched from, and whether the slot was flushed. -/
structure Slot where
  ir : Word
  pc : Addr
  fl : Bool
  deriving DecidableEq, Repr

/-- Stage register set `M` (R29). `z` and `c` are the flags `Z` and `C` (R30). -/
structure MemRegs where
  res : Byte
  sd : Byte
  z : Bool
  c : Bool
  rd : RegIx
  rwe : Bool
  wsel : WSel
  mwe : Bool
  pc : Addr
  fl : Bool
  deriving DecidableEq, Repr

/-- Stage register set `W` (R31). -/
structure WbRegs where
  val : Byte
  rd : RegIx
  rwe : Bool
  wsel : WSel
  pc : Addr
  fl : Bool
  deriving DecidableEq, Repr

/-- The machine between two clocks. -/
structure State where
  /-- Register file (R20). -/
  x : RegFile
  /-- Data memory (spec/20_memory.md R61). -/
  dm : Memory
  /-- Fetch stage (R26). -/
  f : FetchRegs
  /-- Decode stage (R27). -/
  d : Slot
  /-- Execute stage (R28). -/
  e : Slot
  /-- MemoryAccess stage, with the flags (R29, R30). -/
  m : MemRegs
  /-- Writeback stage (R31). -/
  w : WbRegs
  /-- Clocks since `reset` (R32). -/
  cycle : Nat
  /-- The bound program, the instruction store (spec/20_memory.md R62). -/
  program : List Word
  /-- Forwarding policy input (R33). -/
  fwdEn : Bool
  /-- Flush policy input (R33). -/
  flushEn : Bool
  /-- Load-use stall policy input (R33). -/
  stallEn : Bool
  deriving DecidableEq, Repr

/-- Why the engine stops. -/
inductive Fault where
  /-- `EngineFault(opcode)`: raised by `step` when an unflushed word with opcode 27 to 63 is in Execute
  (spec/60_exceptions.md R262, R274). Safe: the spec defines no later state. -/
  | engineFault (opcode : Opcode)
  deriving DecidableEq, Repr

/-- What the model turns away. -/
inductive Refusal where
  /-- Raised by an arm of `exec` that has no meaning yet (none is left). Safe: nothing is claimed. -/
  | notModelled (mnemonic : String)
  /-- Raised by `hostReset` for a program of more than 4096 words (spec/30_encoding.md R106,
  spec/92_eei_decisions.md D20). Safe: such a program never runs. -/
  | programTooLong (length : Nat)
  /-- Raised by `hostReset` for a program that holds a word with no descriptor (R106). Safe: such a
  program never runs. -/
  | undefinedWord
  deriving DecidableEq, Repr

/-- The word in `D` and in `E` after reset: the all-zero word at address 0, not flushed (R39). -/
def Slot.reset : Slot := ⟨0#18, 0#12, false⟩

/-- `M` after reset (R39). -/
def MemRegs.reset : MemRegs := ⟨0#8, 0#8, false, false, 0#4, false, .alu, false, 0#12, false⟩

/-- `W` after reset (R39). -/
def WbRegs.reset : WbRegs := ⟨0#8, 0#4, false, .alu, 0#12, false⟩

/-- The machine after `reset` bound a program, with the policy inputs as given (R39, R33). -/
def State.resetWith (program : List Word) (fwdEn flushEn stallEn : Bool) : State where
  x := Vector.replicate 16 0#8
  dm := []
  f := ⟨0#12⟩
  d := Slot.reset
  e := Slot.reset
  m := MemRegs.reset
  w := WbRegs.reset
  cycle := 0
  program := program
  fwdEn := fwdEn
  flushEn := flushEn
  stallEn := stallEn

/-- The machine right after reset: the table of R39, the policy inputs never set (1 each, R33), and the
empty program bound, which R8 allows (log entry 4). -/
def State.reset : State := State.resetWith [] true true true

end Sys2Proof.Machine
end

