-- ==== Sys2Proof/Machine/Ops.lean ====
section
/-! DEFINITION. The operations over the register file, the data memory, the instruction store and the
program counter, and the one fatal event. The engine takes no exception and returns from none
(spec/60_exceptions.md R260, R265, R266): `raiseEngineFault` is the whole of that subject. -/

namespace Sys2Proof.Machine

/-- `x[i]` (spec/00_scope.md R15). -/
def readReg (x : RegFile) (i : RegIx) : Byte := x[i.toNat]'i.isLt

/-- `x` with cell `i` holding `v`; no cell is special (spec/10_state.md R21). -/
def writeReg (x : RegFile) (i : RegIx) (v : Byte) : RegFile := x.set i.toNat v i.isLt

/-- The byte listed for address `k`, or what an unlisted address reads as. -/
def lookupCell : Memory → Nat → Byte
  | [], _ => Config.unlistedByte
  | (a, b) :: m, k => if a = k then b else lookupCell m k

/-- Put an entry before the first entry with a larger address. -/
def insertCell (k : Nat) (v : Byte) : Memory → Memory
  | [] => [(k, v)]
  | (a, b) :: m => if k < a then (k, v) :: (a, b) :: m else (a, b) :: insertCell k v m

/-- `MemRead(addr, 1)` (spec/00_scope.md R15); reads have no side effect (spec/20_memory.md R66). -/
def readCell (m : Memory) (a : Byte) : Byte := lookupCell m a.toNat

/-- `MemWrite(addr, 1, v)` (spec/00_scope.md R15), keeping the canonical form. -/
def writeCell (m : Memory) (a : Byte) (v : Byte) : Memory :=
  let others := m.filter (fun cell => cell.1 != a.toNat)
  if v = Config.unlistedByte then others else insertCell a.toNat v others

/-- The canonical form: addresses strictly rising and below 256, and no entry equal to what an unlisted
address reads as. -/
def Memory.wf (m : Memory) : Bool :=
  decide (m.Pairwise (fun p q => p.1 < q.1)) &&
    m.all (fun cell => decide (cell.1 < Config.dataCells) && decide (cell.2 ≠ Config.unlistedByte))

/-- `IM[a]`: the program's word, or 0 at or beyond its end (spec/20_memory.md R63). -/
def fetch (program : List Word) (a : Addr) : Word := program.getD a.toNat 0#18

/-- `(pc + 1) mod 4096` (spec/10_state.md R24, R25; log entry 2). -/
def pcSucc (pc : Addr) : Addr := pc + 1#12

/-- `EngineFault(opcode)`: the engine stops; nothing is saved and control goes nowhere
(spec/60_exceptions.md R262, R265). -/
def raiseEngineFault (opcode : Opcode) : Host.Outcome State Fault Refusal :=
  .fault (.engineFault opcode)

/-- A decoding error in Execute is the engine's fatal condition (spec/60_exceptions.md R261). -/
def faultOfDecode : DecodeError → Host.Outcome State Fault Refusal
  | .noDescriptor opcode => raiseEngineFault opcode

end Sys2Proof.Machine
end

