-- ==== Sys2Proof/Machine/Operands.lean ====
section
/-! DEFINITION. Every operand form (spec/30_encoding.md R93) and the operand multiplexers with
forwarding (spec/40_pipeline_engine.md R147 to R151). -/

namespace Sys2Proof.Machine

/-- The operand fields the Execute stage extracts, the same for every opcode (R147): `e_ra`, `e_rb`,
`e_imm`, `e_a12`. -/
structure Operands where
  ra : RegIx
  rb : RegIx
  imm : Byte
  a12 : Addr
  deriving DecidableEq, Repr

/-- R147, from the word itself. -/
def operandsOfWord (w : Word) : Operands := ⟨fieldRd w, fieldRs w, fieldImm w, fieldAddr w⟩

/-- The fields of format `RR` with its unused bits 0. -/
def operandsRR (rd rs : RegIx) : Operands :=
  ⟨rd, rs, BitVec.ofNat 8 (rs.toNat * 16), BitVec.ofNat 12 (rd.toNat * 256 + rs.toNat * 16)⟩

/-- The fields of format `RI`. -/
def operandsRI (rd : RegIx) (imm : Byte) : Operands :=
  ⟨rd, imm.extractLsb' 4 4, imm, BitVec.ofNat 12 (rd.toNat * 256 + imm.toNat)⟩

/-- The fields of format `A`. -/
def operandsA (a : Addr) : Operands :=
  ⟨a.extractLsb' 8 4, a.extractLsb' 4 4, a.extractLsb' 0 8, a⟩

/-- The fields of format `S`: the stored field is the value mod 4096 (R92). -/
def operandsS (s : Int) : Operands := operandsA (BitVec.ofInt 12 s)

/-- The forwarding function (R149): MemoryAccess has priority over Writeback, and a load in MemoryAccess
is no source. -/
def forward (s : State) (i : RegIx) (raw : Byte) : Byte :=
  if s.fwdEn = true ∧ s.m.rwe = true ∧ s.m.wsel = .alu ∧ s.m.rd = i then s.m.res
  else if s.fwdEn = true ∧ s.w.rwe = true ∧ s.w.rd = i then s.w.val
  else raw

/-- A register operand as Execute sees it: the register file of this state (R148), then forwarding. -/
def regOperand (s : State) (i : RegIx) : Byte := forward s i (readReg s.x i)

/-- `e_a` (R150): forwarded whatever the opcode. -/
def operandA (s : State) (o : Operands) : Byte := regOperand s o.ra

/-- `e_b` (R151): an immediate is zero-extended and never forwarded over. -/
def operandB (s : State) (sel : BSel) (o : Operands) : Byte :=
  match sel with
  | .imm => o.imm
  | .reg => regOperand s o.rb

end Sys2Proof.Machine
end

