-- ==== Sys2Proof/Machine/Pipeline.lean ====
section
/-! DEFINITION. One clock (spec/40_pipeline_engine.md): the combinational values of a state, and the
latch that makes the next state from them (R130, R131). -/

namespace Sys2Proof.Machine

/-! ### The control set -/

/-- `INERT` (R141). -/
def Ctl.inert : Ctl := ⟨.passA, .reg, false, .alu, false, .none, .always⟩

/-- The control set of an instruction that writes its ALU result to `x[rd]` (R168, opcodes 1 to 16). -/
def Ctl.compute (op : AluOp) (sel : BSel) : Ctl := ⟨op, sel, true, .alu, false, .none, .always⟩

/-- The control set of a load (R168, opcodes 17 and 18). -/
def Ctl.load (sel : BSel) : Ctl := ⟨.passB, sel, true, .mem, false, .none, .always⟩

/-- The control set of a store (R168, opcodes 19 and 20). -/
def Ctl.store (sel : BSel) : Ctl := ⟨.passB, sel, false, .alu, true, .none, .always⟩

/-- The control set of a transfer (R168, opcodes 21 to 26). -/
def Ctl.transfer (kind : TransferKind) (cond : Cond) : Ctl :=
  ⟨.passA, .reg, false, .alu, false, kind, cond⟩

/-- The control table, one row per opcode, written out from R168 (`-` in `cond` is `ALWAYS`). -/
def controlTable : List Ctl := [
  ⟨.passA, .reg, false, .alu, false, .none, .always⟩,
  ⟨.passB, .reg, true, .alu, false, .none, .always⟩,
  ⟨.passB, .imm, true, .alu, false, .none, .always⟩,
  ⟨.add, .reg, true, .alu, false, .none, .always⟩,
  ⟨.add, .imm, true, .alu, false, .none, .always⟩,
  ⟨.sub, .reg, true, .alu, false, .none, .always⟩,
  ⟨.sub, .imm, true, .alu, false, .none, .always⟩,
  ⟨.and, .reg, true, .alu, false, .none, .always⟩,
  ⟨.and, .imm, true, .alu, false, .none, .always⟩,
  ⟨.or, .reg, true, .alu, false, .none, .always⟩,
  ⟨.or, .imm, true, .alu, false, .none, .always⟩,
  ⟨.xor, .reg, true, .alu, false, .none, .always⟩,
  ⟨.xor, .imm, true, .alu, false, .none, .always⟩,
  ⟨.shl, .reg, true, .alu, false, .none, .always⟩,
  ⟨.shl, .imm, true, .alu, false, .none, .always⟩,
  ⟨.sar, .reg, true, .alu, false, .none, .always⟩,
  ⟨.sar, .imm, true, .alu, false, .none, .always⟩,
  ⟨.passB, .reg, true, .mem, false, .none, .always⟩,
  ⟨.passB, .imm, true, .mem, false, .none, .always⟩,
  ⟨.passB, .reg, false, .alu, true, .none, .always⟩,
  ⟨.passB, .imm, false, .alu, true, .none, .always⟩,
  ⟨.passA, .reg, false, .alu, false, .abs, .always⟩,
  ⟨.passA, .reg, false, .alu, false, .abs, .z⟩,
  ⟨.passA, .reg, false, .alu, false, .abs, .nz⟩,
  ⟨.passA, .reg, false, .alu, false, .rel, .always⟩,
  ⟨.passA, .reg, false, .alu, false, .rel, .z⟩,
  ⟨.passA, .reg, false, .alu, false, .rel, .nz⟩]

/-- The load-use stall condition (R144): no register index is compared. -/
def stallCondition (s : State) : Bool := s.stallEn && s.m.rwe && decide (s.m.wsel = .mem)

/-- The effective control set (R143): inert for a flushed slot and in a stall. -/
def effectiveCtl (s : State) (ctl0 : Ctl) : Ctl :=
  if s.e.fl = true then .inert else if stallCondition s = true then .inert else ctl0

/-! ### Phase 3 -/

/-- The flags leaving Execute: written by a flag-setting operation, else held (R154). -/
def flagsOut (s : State) (op : AluOp) (a b : Byte) : Flags :=
  match aluFlags op a b with
  | some fl => fl
  | none => ⟨s.m.z, s.m.c⟩

/-- `e_tgt` (R155): the absolute field, or the branch's own address plus the sign-extended offset, mod
4096. With no transfer in Execute the spec calls it undefined and unused: there is none (log entry 9). -/
def transferTarget (s : State) (ctl : Ctl) (o : Operands) : Option Addr :=
  match ctl.br with
  | .none => none
  | .abs => some o.a12
  | .rel => some (BitVec.ofInt 12 ((s.e.pc.toNat : Int) + o.a12.toInt))

/-- Whether the condition of a transfer holds on the latched zero flag `M.z` (R156). -/
def condHolds (s : State) (cond : Cond) : Bool :=
  match cond with
  | .always => true
  | .z => s.m.z
  | .nz => !s.m.z

/-- `e_taken` (R156). -/
def taken (s : State) (ctl : Ctl) : Bool := decide (ctl.br ≠ .none) && condHolds s ctl.cond

/-- `next_pc` (R157); the redirect does not depend on `flush_en`. -/
def nextPc (s : State) (ctl : Ctl) (o : Operands) : Addr :=
  match transferTarget s ctl o with
  | none => pcSucc s.f.pc
  | some target => if taken s ctl = true then target else pcSucc s.f.pc

/-- `m_wval` (R161): a load's read of `DM`, else the latched ALU result. -/
def writeBackValue (s : State) : Byte :=
  match s.m.wsel with
  | .mem => readCell s.dm s.m.res
  | .alu => s.m.res

/-- Every combinational value and control signal of a state, as the host may inspect it (R131;
spec/10_state.md R37). -/
structure Comb where
  /-- `f_ir` (R159). -/
  fIr : Word
  /-- `e_opc` (R147). -/
  eOpc : Opcode
  /-- `e_ra`, `e_rb`, `e_imm`, `e_a12` (R147). -/
  fields : Operands
  /-- The fields of the word in Decode, wires that no rule reads: the opcode (R160). -/
  dOpc : Opcode
  /-- The operand fields of R147 applied to the word in Decode (R160). -/
  dFields : Operands
  /-- `ctl0`, the control table's row for `e_opc` (R142), of a flushed slot too. An opcode without a row has
  none; unflushed, such a word shows no values, since the lookup faults. -/
  ctl0 : Option Ctl
  /-- `stall` (R144). -/
  stall : Bool
  /-- `ctl`, the effective control set (R143). -/
  ctl : Ctl
  /-- `a_raw`: the register file's cell `e_ra`, before forwarding (R148). -/
  aRaw : Byte
  /-- `b_raw`: the register file's cell `e_rb`, before forwarding (R148). -/
  bRaw : Byte
  /-- `e_a` (R150). -/
  eA : Byte
  /-- `e_b` (R151). -/
  eB : Byte
  /-- `e_res` (R152). -/
  eRes : Byte
  /-- `alu_z`, `alu_c`, the raw flag outputs; none where the operation's row of R152 gives none (log
  entry 9). -/
  aluZC : Option Flags
  /-- `e_fwe` (R153). -/
  eFwe : Bool
  /-- `e_z`, `e_c` (R154). -/
  eFlags : Flags
  /-- `e_tgt` (R155). -/
  eTgt : Option Addr
  /-- `e_taken` (R156). -/
  eTaken : Bool
  /-- `next_pc` (R157). -/
  nextPc : Addr
  /-- `f_en` (R146). -/
  fEn : Bool
  /-- `d_en` (R146). -/
  dEn : Bool
  /-- `e_en` (R146). -/
  eEn : Bool
  /-- `m_en` (R146). -/
  mEn : Bool
  /-- `w_en` (R146). -/
  wEn : Bool
  /-- `f_flush` (R158). -/
  fFlush : Bool
  /-- `d_flush` (R158). -/
  dFlush : Bool
  /-- `m_rdata` (R161): read in every cycle. -/
  mRdata : Byte
  /-- `m_wval` (R161). -/
  mWval : Byte
  deriving DecidableEq, Repr

/-- Phases 2 and 3 (R130), for the looked-up control set and the operand fields of the word in Execute. -/
def evaluate (ctl0 : Ctl) (o : Operands) (s : State) : Comb :=
  let ctl := effectiveCtl s ctl0
  let a := operandA s o
  let b := operandB s ctl.bSel o
  { fIr := fetch s.program s.f.pc
    eOpc := opcodeOf s.e.ir
    fields := o
    dOpc := opcodeOf s.d.ir
    dFields := operandsOfWord s.d.ir
    ctl0 := controlTable[(opcodeOf s.e.ir).toNat]?
    stall := stallCondition s
    ctl := ctl
    aRaw := readReg s.x o.ra
    bRaw := readReg s.x o.rb
    eA := a
    eB := b
    eRes := aluResult ctl.aluOp a b
    aluZC := aluFlags ctl.aluOp a b
    eFwe := flagWriteEnable ctl.aluOp
    eFlags := flagsOut s ctl.aluOp a b
    eTgt := transferTarget s ctl o
    eTaken := taken s ctl
    nextPc := nextPc s ctl o
    fEn := !stallCondition s
    dEn := !stallCondition s
    eEn := !stallCondition s
    mEn := true
    wEn := true
    fFlush := taken s ctl && s.flushEn
    dFlush := taken s ctl && s.flushEn
    mRdata := readCell s.dm s.m.res
    mWval := writeBackValue s }

/-! ### Phase 1: the commits and the latches, all reading the old state (R163) -/

/-- The register commit (R133). -/
def commitReg (s : State) (c : Comb) : RegFile :=
  if s.m.rwe = true then writeReg s.x s.m.rd c.mWval else s.x

/-- The memory commit (R134). -/
def commitMem (s : State) (c : Comb) : Memory :=
  if c.ctl.mwe = true then writeCell s.dm c.eRes c.eA else s.dm

/-- The Writeback latch (R135). -/
def latchW (s : State) (c : Comb) : WbRegs :=
  if c.wEn = true then ⟨c.mWval, s.m.rd, s.m.rwe, s.m.wsel, s.m.pc, s.m.fl⟩ else s.w

/-- The MemoryAccess latch (R136). -/
def latchM (s : State) (c : Comb) : MemRegs :=
  if c.mEn = true then
    ⟨c.eRes, c.eA, c.eFlags.z, c.eFlags.c, c.fields.ra, c.ctl.rwe, c.ctl.wsel, c.ctl.mwe, s.e.pc,
      s.e.fl || c.stall⟩
  else s.m

/-- The Execute latch (R137): the enable is tested before the flush. -/
def latchE (s : State) (c : Comb) : Slot :=
  if c.eEn = true then (if c.dFlush = true then ⟨0#18, s.d.pc, true⟩ else s.d) else s.e

/-- The Decode latch (R138). -/
def latchD (s : State) (c : Comb) : Slot :=
  if c.dEn = true then (if c.fFlush = true then ⟨0#18, s.f.pc, true⟩ else ⟨c.fIr, s.f.pc, false⟩)
  else s.d

/-- The Fetch latch (R139). -/
def latchF (s : State) (c : Comb) : FetchRegs := if c.fEn = true then ⟨c.nextPc⟩ else s.f

/-- Phase 1 whole (R132 to R139, R162); the program and the policy inputs are not the engine's to write. -/
def latch (s : State) (c : Comb) : State where
  x := commitReg s c
  dm := commitMem s c
  f := latchF s c
  d := latchD s c
  e := latchE s c
  m := latchM s c
  w := latchW s c
  cycle := s.cycle + 1
  program := s.program
  fwdEn := s.fwdEn
  flushEn := s.flushEn
  stallEn := s.stallEn

/-- One clock with the given looked-up control set and operand fields in Execute (R131). -/
def clockWith (ctl0 : Ctl) (o : Operands) (s : State) : State := latch s (evaluate ctl0 o s)

/-- One clock with a flushed slot in Execute, whatever its word (R143). -/
def bubbleClock (s : State) : State := clockWith .inert (operandsOfWord s.e.ir) s

end Sys2Proof.Machine
end

