-- ==== Sys2Proof/Machine/Arith.lean ====
section
/-! DEFINITION. `add` and `sub` (spec/41_alu_instructions.md section 4): they write `x[rd]` and both flags. -/

namespace Sys2Proof.Machine

/-- `add rd rs` (R203). -/
def execAddRR (rd rs : RegIx) (s : State) : Host.Outcome State Fault Refusal :=
  .next (clockWith (.compute .add .reg) (operandsRR rd rs) s)

/-- `add rd imm8` (R204). -/
def execAddRI (rd : RegIx) (imm : Byte) (s : State) : Host.Outcome State Fault Refusal :=
  .next (clockWith (.compute .add .imm) (operandsRI rd imm) s)

/-- `sub rd rs` (R205). -/
def execSubRR (rd rs : RegIx) (s : State) : Host.Outcome State Fault Refusal :=
  .next (clockWith (.compute .sub .reg) (operandsRR rd rs) s)

/-- `sub rd imm8` (R206). -/
def execSubRI (rd : RegIx) (imm : Byte) (s : State) : Host.Outcome State Fault Refusal :=
  .next (clockWith (.compute .sub .imm) (operandsRI rd imm) s)

end Sys2Proof.Machine
end

