-- ==== Sys2Proof/Machine/LoadStore.lean ====
section
/-! DEFINITION. `ld` and `st` (spec/42_load_store.md): the address is operand B, the data of a store is
operand A (R230). -/

namespace Sys2Proof.Machine

/-- `ld rd rs` (R231). -/
def execLdRR (rd rs : RegIx) (s : State) : Host.Outcome State Fault Refusal :=
  .next (clockWith (.load .reg) (operandsRR rd rs) s)

/-- `ld rd imm8` (R232). -/
def execLdRI (rd : RegIx) (imm : Byte) (s : State) : Host.Outcome State Fault Refusal :=
  .next (clockWith (.load .imm) (operandsRI rd imm) s)

/-- `st rd rs` (R233). -/
def execStRR (rd rs : RegIx) (s : State) : Host.Outcome State Fault Refusal :=
  .next (clockWith (.store .reg) (operandsRR rd rs) s)

/-- `st rd imm8` (R234). -/
def execStRI (rd : RegIx) (imm : Byte) (s : State) : Host.Outcome State Fault Refusal :=
  .next (clockWith (.store .imm) (operandsRI rd imm) s)

end Sys2Proof.Machine
end

