-- ==== Sys2Proof/Machine/Logic.lean ====
section
/-! DEFINITION. `and`, `or` and `xor` (spec/41_alu_instructions.md section 5): they write `x[rd]` and both
flags. -/

namespace Sys2Proof.Machine

/-- `and rd rs` (R207). -/
def execAndRR (rd rs : RegIx) (s : State) : Host.Outcome State Fault Refusal :=
  .next (clockWith (.compute .and .reg) (operandsRR rd rs) s)

/-- `and rd imm8` (R208). -/
def execAndRI (rd : RegIx) (imm : Byte) (s : State) : Host.Outcome State Fault Refusal :=
  .next (clockWith (.compute .and .imm) (operandsRI rd imm) s)

/-- `or rd rs` (R209). -/
def execOrRR (rd rs : RegIx) (s : State) : Host.Outcome State Fault Refusal :=
  .next (clockWith (.compute .or .reg) (operandsRR rd rs) s)

/-- `or rd imm8` (R210). -/
def execOrRI (rd : RegIx) (imm : Byte) (s : State) : Host.Outcome State Fault Refusal :=
  .next (clockWith (.compute .or .imm) (operandsRI rd imm) s)

/-- `xor rd rs` (R211). -/
def execXorRR (rd rs : RegIx) (s : State) : Host.Outcome State Fault Refusal :=
  .next (clockWith (.compute .xor .reg) (operandsRR rd rs) s)

/-- `xor rd imm8` (R212). -/
def execXorRI (rd : RegIx) (imm : Byte) (s : State) : Host.Outcome State Fault Refusal :=
  .next (clockWith (.compute .xor .imm) (operandsRI rd imm) s)

end Sys2Proof.Machine
end

