-- ==== Sys2Proof/Machine/Move.lean ====
section
/-! DEFINITION. `nop` and `mov` (spec/41_alu_instructions.md sections 2 and 3). A meaning is the whole
clock in which the instruction occupies Execute (log entry 6). -/

namespace Sys2Proof.Machine

/-- `nop` (R200): inert. Its word's low 12 bits are ignored but still index the read that reaches
`M.res`, so they are taken from `E.ir` (log entry 8). -/
def execNop (s : State) : Host.Outcome State Fault Refusal :=
  .next (clockWith .inert (operandsOfWord s.e.ir) s)

/-- `mov rd rs` (R201). -/
def execMovRR (rd rs : RegIx) (s : State) : Host.Outcome State Fault Refusal :=
  .next (clockWith (.compute .passB .reg) (operandsRR rd rs) s)

/-- `mov rd imm8` (R202). -/
def execMovRI (rd : RegIx) (imm : Byte) (s : State) : Host.Outcome State Fault Refusal :=
  .next (clockWith (.compute .passB .imm) (operandsRI rd imm) s)

end Sys2Proof.Machine
end

