-- ==== Sys2Proof/Machine/Shift.lean ====
section
/-! DEFINITION. `shl` and `sar` (spec/41_alu_instructions.md section 6): they write `x[rd]` and no flag. -/

namespace Sys2Proof.Machine

/-- `shl rd rs` (R213). -/
def execShlRR (rd rs : RegIx) (s : State) : Host.Outcome State Fault Refusal :=
  .next (clockWith (.compute .shl .reg) (operandsRR rd rs) s)

/-- `shl rd imm8` (R214). -/
def execShlRI (rd : RegIx) (imm : Byte) (s : State) : Host.Outcome State Fault Refusal :=
  .next (clockWith (.compute .shl .imm) (operandsRI rd imm) s)

/-- `sar rd rs` (R215). -/
def execSarRR (rd rs : RegIx) (s : State) : Host.Outcome State Fault Refusal :=
  .next (clockWith (.compute .sar .reg) (operandsRR rd rs) s)

/-- `sar rd imm8` (R216). -/
def execSarRI (rd : RegIx) (imm : Byte) (s : State) : Host.Outcome State Fault Refusal :=
  .next (clockWith (.compute .sar .imm) (operandsRI rd imm) s)

end Sys2Proof.Machine
end

