-- ==== Sys2Proof/Machine/Transfer.lean ====
section
/-! DEFINITION. Jumps and branches (spec/43_control_transfer.md): resolved in Execute; none links and none
writes `x`, `DM`, `Z` or `C` (R240). -/

namespace Sys2Proof.Machine

/-- `jmp a12` (R241). -/
def execJmp (a : Addr) (s : State) : Host.Outcome State Fault Refusal :=
  .next (clockWith (.transfer .abs .always) (operandsA a) s)

/-- `jz a12` (R242). -/
def execJz (a : Addr) (s : State) : Host.Outcome State Fault Refusal :=
  .next (clockWith (.transfer .abs .z) (operandsA a) s)

/-- `jnz a12` (R243). -/
def execJnz (a : Addr) (s : State) : Host.Outcome State Fault Refusal :=
  .next (clockWith (.transfer .abs .nz) (operandsA a) s)

/-- `br s12` (R244). -/
def execBr (off : Int) (s : State) : Host.Outcome State Fault Refusal :=
  .next (clockWith (.transfer .rel .always) (operandsS off) s)

/-- `bz s12` (R245). -/
def execBz (off : Int) (s : State) : Host.Outcome State Fault Refusal :=
  .next (clockWith (.transfer .rel .z) (operandsS off) s)

/-- `bnz s12` (R246). -/
def execBnz (off : Int) (s : State) : Host.Outcome State Fault Refusal :=
  .next (clockWith (.transfer .rel .nz) (operandsS off) s)

end Sys2Proof.Machine
end

