-- ==== Sys2Proof/Machine/Dispatch.lean ====
section
/-! DEFINITION. The meaning of each instruction, one arm each, in the order of spec/30_encoding.md R101. -/

namespace Sys2Proof.Machine

/-- What one clock does while instruction `i` occupies Execute. -/
def exec (i : Instr) (s : State) : Host.Outcome State Fault Refusal :=
  match i with
  | .nop => Sys2Proof.Machine.execNop s
  | .movRR rd rs => Sys2Proof.Machine.execMovRR rd rs s
  | .movRI rd imm => Sys2Proof.Machine.execMovRI rd imm s
  | .addRR rd rs => Sys2Proof.Machine.execAddRR rd rs s
  | .addRI rd imm => Sys2Proof.Machine.execAddRI rd imm s
  | .subRR rd rs => Sys2Proof.Machine.execSubRR rd rs s
  | .subRI rd imm => Sys2Proof.Machine.execSubRI rd imm s
  | .andRR rd rs => Sys2Proof.Machine.execAndRR rd rs s
  | .andRI rd imm => Sys2Proof.Machine.execAndRI rd imm s
  | .orRR rd rs => Sys2Proof.Machine.execOrRR rd rs s
  | .orRI rd imm => Sys2Proof.Machine.execOrRI rd imm s
  | .xorRR rd rs => Sys2Proof.Machine.execXorRR rd rs s
  | .xorRI rd imm => Sys2Proof.Machine.execXorRI rd imm s
  | .shlRR rd rs => Sys2Proof.Machine.execShlRR rd rs s
  | .shlRI rd imm => Sys2Proof.Machine.execShlRI rd imm s
  | .sarRR rd rs => Sys2Proof.Machine.execSarRR rd rs s
  | .sarRI rd imm => Sys2Proof.Machine.execSarRI rd imm s
  | .ldRR rd rs => Sys2Proof.Machine.execLdRR rd rs s
  | .ldRI rd imm => Sys2Proof.Machine.execLdRI rd imm s
  | .stRR rd rs => Sys2Proof.Machine.execStRR rd rs s
  | .stRI rd imm => Sys2Proof.Machine.execStRI rd imm s
  | .jmp a => Sys2Proof.Machine.execJmp a s
  | .jz a => Sys2Proof.Machine.execJz a s
  | .jnz a => Sys2Proof.Machine.execJnz a s
  | .br off => Sys2Proof.Machine.execBr off s
  | .bz off => Sys2Proof.Machine.execBz off s
  | .bnz off => Sys2Proof.Machine.execBnz off s

end Sys2Proof.Machine
end

