-- ==== Sys2Proof/Machine/HostApi.lean ====
section
/-! DEFINITION. What the host can do to the engine between two clocks (spec/00_scope.md R9): reset it
with a program, set the policy inputs, and inspect it; and the opcode dispatch through the control table
(spec/40_pipeline_engine.md R142, R168). -/

namespace Sys2Proof.Machine

/-- `reset(program)` (spec/70_reset_and_hazards.md R290, R293): everything to the table of R39, the
policy inputs kept (R294). A program that is not well formed is refused (spec/30_encoding.md R106,
log entry 12). After an `EngineFault` the state to give is the last one (log entry 13). -/
def hostReset (program : List Word) (s : State) : Host.Outcome State Fault Refusal :=
  if Config.maxProgramLength < program.length then .refused (.programTooLong program.length)
  else if programWf program = true then .next (State.resetWith program s.fwdEn s.flushEn s.stallEn)
  else .refused .undefinedWord

/-- The host sets the policy inputs (spec/10_state.md R33); they take effect in the next clock
(spec/70_reset_and_hazards.md R309). -/
def setPolicies (s : State) (fwdEn flushEn stallEn : Bool) : State :=
  { s with fwdEn := fwdEn, flushEn := flushEn, stallEn := stallEn }

/-- Opcode dispatch (R142): the row of the control table for the word in Execute, or the fatal event. A
flushed slot looks nothing up (R143). -/
def lookupControl (s : State) : Except Fault Ctl :=
  if s.e.fl = true then .ok .inert
  else
    match controlTable[(opcodeOf s.e.ir).toNat]? with
    | some ctl => .ok ctl
    | none => .error (.engineFault (opcodeOf s.e.ir))

/-- Read-only inspection of the control signals and combinational values (spec/60_exceptions.md R272,
spec/40_pipeline_engine.md R131); a state with an undefined word in Execute reports the fault. The
latched state is read through the fields of `State`. -/
def inspect (s : State) : Except Fault Comb :=
  match lookupControl s with
  | .ok ctl0 => .ok (evaluate ctl0 (operandsOfWord s.e.ir) s)
  | .error fault => .error fault

/-- The five-stage shadow pipeline of addresses (spec/10_state.md R38). -/
def shadowPipeline (s : State) : List Addr := [s.f.pc, s.d.pc, s.e.pc, s.m.pc, s.w.pc]

/-- Put a word into Execute as an unflushed fetched word, so that the next clock runs it. A pending
load-use stall would hold it for a clock: the load's write enable is taken away (log entry 5). -/
def placeInExecute (w : Word) (s : State) : State :=
  { s with
    e := ⟨w, s.e.pc, false⟩
    m := if stallCondition s = true then { s.m with rwe := false } else s.m }

end Sys2Proof.Machine
end

