-- ==== Sys2Proof/Machine/Step.lean ====
section
/-! DEFINITION. One step of the machine is one `clock()` (spec/40_pipeline_engine.md R130, R131). -/

namespace Sys2Proof.Machine

/-- A flushed slot in Execute is inert whatever its word (R143). Otherwise the word in Execute is
decoded and its instruction runs this clock; a word with no descriptor is the engine's fatal condition
(R142, spec/60_exceptions.md R262), tested before the stall (R264), which `exec` applies. -/
def step (s : State) : Host.Outcome State Fault Refusal :=
  if s.e.fl = true then .next (bubbleClock s)
  else
    match decode s.e.ir with
    | .ok i => exec i s
    | .error err => faultOfDecode err

/-- The instruction of bits `w` placed where the next step runs it: the Execute stage register (log
entry 5). -/
def State.withFetchWord (s : State) (nbits w : Nat) : State :=
  placeInExecute (BitVec.ofNat 18 (w % 2 ^ nbits)) s

end Sys2Proof.Machine
end

