-- ==== Sys2Proof/Machine/Assembler.lean ====
section
/-! DEFINITION. The assembler's accept and reject rules (spec/30_encoding.md section 6, R110 to R120) and
its canonical rendering (R117). It is surrounding software: the engine takes the list of words it makes
(spec/00_scope.md R5). Texts are lists of characters. What the rules leave open is log entries 15
and 17. -/

namespace Sys2Proof.Machine

/-- A whitespace-separated piece of a line (R110). -/
abbrev Token := List Char

/-- Why a line is rejected (R112, R113, R114, R120 classes (b) to (d)). -/
inductive AsmReason where
  /-- A label that is not the first token of its line (R112). -/
  | labelNotFirst
  /-- A label with a token after it (R112). -/
  | labelFollowed
  /-- A label name of fewer than 3 characters (R112). -/
  | labelTooShort
  /-- A label name already in the table (R112). -/
  | labelDuplicate
  /-- An operand that is no register, number or known label (R113). -/
  | unresolvedOperand
  /-- No descriptor fits mnemonic, arity and ranges (R114). -/
  | noDescriptorFits
  deriving DecidableEq, Repr

/-- A diagnostic: "the 1-based source line number" and the reason (R116). -/
structure Diagnostic where
  line : Nat
  reason : AsmReason
  deriving DecidableEq, Repr

/-! ### Lexical rules (R110, R118) -/

/-- The lines of a text. -/
def splitLines : List Char → List (List Char)
  | [] => [[]]
  | c :: cs =>
    if c = '\n' then [] :: splitLines cs
    else
      match splitLines cs with
      | [] => [[c]]
      | l :: ls => (c :: l) :: ls

/-- Everything before the first `;` (R110). -/
def stripComment (line : List Char) : List Char := line.takeWhile (fun c => c ≠ ';')

/-- Whitespace-separated tokens; `cur` is the token being read, reversed. -/
def tokensFrom : List Char → Token → List Token
  | [], cur => if cur.isEmpty then [] else [cur.reverse]
  | c :: cs, cur =>
    if c.isWhitespace then (if cur.isEmpty then tokensFrom cs [] else cur.reverse :: tokensFrom cs [])
    else tokensFrom cs (c :: cur)

/-- The tokens of a source line (R110). -/
def lineTokens (line : List Char) : List Token := tokensFrom (stripComment line) []

/-- The lines numbered from `n`, those with no token left out: they consume no address (R110). -/
def numberLines : Nat → List (List Char) → List (Nat × List Token)
  | _, [] => []
  | n, l :: ls =>
    let rest := numberLines (n + 1) ls
    if (lineTokens l).isEmpty then rest else (n, lineTokens l) :: rest

/-- The non-empty lines of a source text, numbered from 1. -/
def sourceLines (text : List Char) : List (Nat × List Token) := numberLines 1 (splitLines text)

/-- The value of a decimal digit. -/
def decDigit (c : Char) : Option Nat :=
  if '0' ≤ c ∧ c ≤ '9' then some (c.toNat - '0'.toNat) else none

/-- The value of a hexadecimal digit in either case (R118). -/
def hexDigit (c : Char) : Option Nat :=
  if '0' ≤ c ∧ c ≤ '9' then some (c.toNat - '0'.toNat)
  else if 'a' ≤ c ∧ c ≤ 'f' then some (c.toNat - 'a'.toNat + 10)
  else if 'A' ≤ c ∧ c ≤ 'F' then some (c.toNat - 'A'.toNat + 10)
  else none

/-- The number that digits spell, in a base, after the value `acc`. -/
def digitsFrom (digit : Char → Option Nat) (base : Nat) : Nat → List Char → Option Nat
  | acc, [] => some acc
  | acc, c :: cs =>
    match digit c with
    | some d => digitsFrom digit base (acc * base + d) cs
    | none => none

/-- One or more digits. -/
def number (digit : Char → Option Nat) (base : Nat) (cs : List Char) : Option Nat :=
  if cs.isEmpty then none else digitsFrom digit base 0 cs

/-- A classified operand token (R113). -/
inductive OperandToken where
  | register (n : Nat)
  | value (v : Int)
  deriving DecidableEq, Repr

/-- Register syntax: `r` and decimal digits (R118). -/
def registerToken : Token → Option OperandToken
  | 'r' :: cs => (number decDigit 10 cs).map OperandToken.register
  | _ => none

/-- Numeric syntax: an optional `-`, `x`, hexadecimal digits (R118). -/
def numericToken : Token → Option OperandToken
  | '-' :: 'x' :: cs => (number hexDigit 16 cs).map (fun n => OperandToken.value (-(n : Int)))
  | 'x' :: cs => (number hexDigit 16 cs).map (fun n => OperandToken.value (n : Int))
  | _ => none

/-! ### Pass 1: label discovery (R111, R112) -/

/-- A token ending in `:` marks a label (R111). -/
def isLabelToken (t : Token) : Bool := decide (t.getLast? = some ':')

/-- The label's name: the token without the colon (R112). -/
def labelName (t : Token) : List Char := t.dropLast

/-- The label table: names and 12-bit program addresses (R111; spec/00_scope.md R7 `PA_BITS`). -/
abbrev LabelTable := List (List Char × Addr)

/-- The program address at which a label that `count` instructions precede is bound: `count` itself where
that is a 12-bit address (R111, R112), and a free one beyond (log entry 17). -/
def labelAddress (count : Nat) : Addr :=
  if count < 2 ^ 12 then BitVec.ofNat 12 count else Config.labelAddressBeyond count

/-- The address of a label. -/
def findLabel (table : LabelTable) (name : List Char) : Option Addr :=
  (table.find? (fun entry => entry.1 == name)).map (fun entry => entry.2)

/-- What pass 1 has so far: the "running address counter" (R111), which counts the instruction lines passed
and becomes a program address only where a label takes it, the table, and the diagnostics. -/
structure Pass1 where
  counter : Nat
  table : LabelTable
  diagnostics : List Diagnostic
  deriving DecidableEq, Repr

/-- Why a label token at the head of a line is invalid, if it is (R112). -/
def headLabelProblem (table : LabelTable) (t : Token) (followers : List Token) : Option AsmReason :=
  if followers ≠ [] then some .labelFollowed
  else if (labelName t).length < Config.minLabelLength then some .labelTooShort
  else if (findLabel table (labelName t)).isSome then some .labelDuplicate
  else none

/-- One line of pass 1: each invalid label token is a diagnostic, a valid one binds its name to the
current address, and a line with a non-label token advances the counter by 1 (R111, R112). -/
def pass1Line (p : Pass1) (line : Nat) (tokens : List Token) : Pass1 :=
  match tokens with
  | [] => p
  | t :: followers =>
    let late := (followers.filter isLabelToken).map (fun _ => Diagnostic.mk line .labelNotFirst)
    let counter := if tokens.all isLabelToken then p.counter else p.counter + 1
    if isLabelToken t then
      match headLabelProblem p.table t followers with
      | some reason => ⟨counter, p.table, p.diagnostics ++ ⟨line, reason⟩ :: late⟩
      | none => ⟨counter, p.table ++ [(labelName t, labelAddress p.counter)], p.diagnostics ++ late⟩
    else ⟨counter, p.table, p.diagnostics ++ late⟩

/-- Pass 1 over the whole source. -/
def pass1 (lines : List (Nat × List Token)) : Pass1 :=
  lines.foldl (fun p l => pass1Line p l.1 l.2) ⟨0, [], []⟩

/-! ### Pass 2: classification and matching (R113, R114) -/

/-- Classify an operand token, in priority order (R113). -/
def classify (table : LabelTable) (t : Token) : Option OperandToken :=
  match registerToken t with
  | some o => some o
  | none =>
    match numericToken t with
    | some o => some o
    | none => (findLabel table t).map (fun a => OperandToken.value (a.toNat : Int))

/-- Whether a classified token satisfies an operand kind: a register only a Register, a number any other
kind, in range (R114). -/
def satisfies (k : OperandKind) (o : OperandToken) : Bool :=
  match o with
  | .register n => decide (k = .register) && k.inRange n
  | .value v => decide (k ≠ .register) && k.inRange v

/-- The value a classified token stands for. -/
def OperandToken.toInt : OperandToken → Int
  | .register n => n
  | .value v => v

/-- Every operand satisfies its field, one for one (R114). -/
def allSatisfy : List OperandField → List OperandToken → Bool
  | [], [] => true
  | f :: fs, o :: os => satisfies f.kind o && allSatisfy fs os
  | _, _ => false

/-- The first descriptor, in table order, with the mnemonic, the arity and the ranges (R114). -/
def matchDescriptor (mnemonic : Token) (os : List OperandToken) : Option Descriptor :=
  descriptors.find? (fun d => d.mnemonic.toList == mnemonic && allSatisfy d.fields os)

/-- One line of pass 2: a word, or its diagnostics; a line that begins with a label gives neither. -/
def pass2Line (table : LabelTable) (line : Nat) (tokens : List Token) :
    List Diagnostic × List Word :=
  match tokens with
  | [] => ([], [])
  | mnemonic :: operands =>
    if isLabelToken mnemonic then ([], [])
    else
      let classified := operands.map (classify table)
      let unresolved := classified.filter Option.isNone
      if unresolved ≠ [] then (unresolved.map (fun _ => ⟨line, .unresolvedOperand⟩), [])
      else
        let os := classified.filterMap id
        match matchDescriptor mnemonic os with
        | some d => ([], [encodeDescriptor d (os.map OperandToken.toInt)])
        | none => ([⟨line, .noDescriptorFits⟩], [])

/-- Pass 2 over the whole source. -/
def pass2 (table : LabelTable) : List (Nat × List Token) → List Diagnostic × List Word
  | [] => ([], [])
  | l :: ls =>
    let here := pass2Line table l.1 l.2
    let rest := pass2 table ls
    (here.1 ++ rest.1, here.2 ++ rest.2)

/-- The assembler: a Program, or the diagnostics of the pass that failed, never both (R111, R116). -/
def assemble (text : List Char) : Except (List Diagnostic) (List Word) :=
  let lines := sourceLines text
  let p1 := pass1 lines
  if p1.diagnostics ≠ [] then .error p1.diagnostics
  else
    let p2 := pass2 p1.table lines
    if p2.1 ≠ [] then .error p2.1 else .ok p2.2

/-! ### Canonical rendering (R117) -/

/-- A digit in base 10 or 16, upper case. -/
def digitChar (n : Nat) : Char :=
  if n < 10 then Char.ofNat ('0'.toNat + n) else Char.ofNat ('A'.toNat + (n - 10))

/-- The number in decimal. -/
def renderDec (n : Nat) : List Char := if n < 10 then [digitChar n] else [digitChar (n / 10), digitChar (n % 10)]

/-- The low `k` hexadecimal digits of a number, zero-padded. -/
def renderHex : Nat → Nat → List Char
  | 0, _ => []
  | k + 1, n => renderHex k (n / 16) ++ [digitChar (n % 16)]

/-- An operand as its kind renders it: `rN`, or `x` and 2 digits for an immediate, 3 for an address, with
a leading minus sign for a negative one (R117). -/
def renderOperand (k : OperandKind) (v : Int) : List Char :=
  match k with
  | .register => 'r' :: renderDec v.toNat
  | .immediate => 'x' :: renderHex 2 v.toNat
  | .unsignedAddress => 'x' :: renderHex 3 v.toNat
  | .signedAddress => if v < 0 then '-' :: 'x' :: renderHex 3 (-v).toNat else 'x' :: renderHex 3 v.toNat

/-- The operands, each after a space. -/
def renderOperands : List OperandField → List Int → List Char
  | f :: fs, v :: vs => ' ' :: renderOperand f.kind v ++ renderOperands fs vs
  | _, _ => []

/-- The canonical rendering of an instruction (R117). -/
def render (i : Instr) : List Char :=
  match descriptors[i.opcode]? with
  | some d => d.mnemonic.toList ++ renderOperands d.fields i.operands
  | none => []

end Sys2Proof.Machine
end

