-- ==== Sys2Proof/Machine/Listing.lean ====
section
/-! DEFINITION. The listing of spec/40_pipeline_engine.md R169, line by line: the whole `clock()` in one
function, dispatching on the opcode through the control table. The machine's `step` is built another
way (decode, then one meaning per instruction); that the two agree is a statement for the provers. -/

namespace Sys2Proof.Machine

/-- `clock()` as R169 lists it. -/
def clockListing (s : State) : Host.Outcome State Fault Refusal :=
  let f_ir := if s.f.pc.toNat < s.program.length then s.program.getD s.f.pc.toNat 0#18 else 0#18
  let e_opc := s.e.ir.extractLsb' 12 6
  let e_ra : RegIx := s.e.ir.extractLsb' 8 4
  let e_rb : RegIx := s.e.ir.extractLsb' 4 4
  let e_imm : Byte := s.e.ir.extractLsb' 0 8
  let e_a12 : Addr := s.e.ir.extractLsb' 0 12
  if s.e.fl = false ∧ Config.numOpcodes ≤ e_opc.toNat then .fault (.engineFault e_opc)
  else
    let stall := s.stallEn && s.m.rwe && decide (s.m.wsel = .mem)
    let ctl := if (s.e.fl || stall) = true then Ctl.inert else controlTable.getD e_opc.toNat Ctl.inert
    let e_a := forward s e_ra (readReg s.x e_ra)
    let e_b := if ctl.bSel = .imm then e_imm else forward s e_rb (readReg s.x e_rb)
    let e_res := aluResult ctl.aluOp e_a e_b
    let e_flags : Flags := (aluFlags ctl.aluOp e_a e_b).getD ⟨s.m.z, s.m.c⟩
    let e_tgt : Addr :=
      if ctl.br = .abs then e_a12
      else BitVec.ofInt 12 (((s.e.pc.toNat : Int) + e_a12.toInt) % 4096)
    let e_taken := decide (ctl.br ≠ .none ∧ (ctl.cond = .always ∨ (ctl.cond = .z ∧ s.m.z = true) ∨
      (ctl.cond = .nz ∧ s.m.z = false)))
    let next_pc : Addr := if e_taken = true then e_tgt else BitVec.ofNat 12 ((s.f.pc.toNat + 1) % 4096)
    let en := !stall
    let flush := e_taken && s.flushEn
    let m_rdata := readCell s.dm s.m.res
    let m_wval := if s.m.wsel = .mem then m_rdata else s.m.res
    .next
      { x := if s.m.rwe = true then writeReg s.x s.m.rd m_wval else s.x
        dm := if ctl.mwe = true then writeCell s.dm e_res e_a else s.dm
        w := ⟨m_wval, s.m.rd, s.m.rwe, s.m.wsel, s.m.pc, s.m.fl⟩
        m := ⟨e_res, e_a, e_flags.z, e_flags.c, e_ra, ctl.rwe, ctl.wsel, ctl.mwe, s.e.pc,
          s.e.fl || stall⟩
        e := if en = true then (if flush = true then ⟨0#18, s.d.pc, true⟩ else s.d) else s.e
        d := if en = true then
            (if flush = true then ⟨0#18, s.f.pc, true⟩ else ⟨f_ir, s.f.pc, false⟩)
          else s.d
        f := if en = true then ⟨next_pc⟩ else s.f
        cycle := s.cycle + 1
        program := s.program
        fwdEn := s.fwdEn
        flushEn := s.flushEn
        stallEn := s.stallEn }

end Sys2Proof.Machine
end

