-- ==== Sys2Proof/Machine/Sequential.lean ====
section
/-! DEFINITION. The sequential view (spec/00_scope.md R16): what one instruction does to `x`, the data
memory, `Z`, `C` and the program address when instructions run one at a time in program order, written
from each instruction rule's own pseudocode; and how a pipeline state shows such a state
(spec/70_reset_and_hazards.md R300, log entry 16). -/

namespace Sys2Proof.Machine

/-- What the sequential view changes. -/
structure SeqState where
  x : RegFile
  dm : Memory
  z : Bool
  c : Bool
  pc : Addr
  deriving DecidableEq, Repr

/-- `x[rd] <- v; pc <- pc + 1`, flags unchanged. -/
def SeqState.put (q : SeqState) (rd : RegIx) (v : Byte) : SeqState :=
  { q with x := writeReg q.x rd v, pc := pcSucc q.pc }

/-- `x[rd] <- v; Z <- (v = 0); C <- c; pc <- pc + 1`. -/
def SeqState.putFlags (q : SeqState) (rd : RegIx) (v : Byte) (c : Bool) : SeqState :=
  { q with x := writeReg q.x rd v, z := decide (v = 0#8), c := c, pc := pcSucc q.pc }

/-- `t = x[rd] + b; x[rd] <- t[7:0]; Z <- (t[7:0] = 0); C <- t[8]; pc <- pc + 1` (R203, R204). -/
def SeqState.addTo (q : SeqState) (rd : RegIx) (b : Byte) : SeqState :=
  let t := (readReg q.x rd).toNat + b.toNat
  q.putFlags rd (BitVec.ofNat 8 (t % 256)) (t.testBit 8)

/-- `t = x[rd] - b; x[rd] <- t mod 256; Z <- (t mod 256 = 0); C <- (1 if t < 0); pc <- pc + 1` (R205,
R206). -/
def SeqState.subFrom (q : SeqState) (rd : RegIx) (b : Byte) : SeqState :=
  let t : Int := (readReg q.x rd).toNat - b.toNat
  q.putFlags rd (BitVec.ofInt 8 (t % 256)) (decide (t < 0))

/-- `x[rd] <- (x[rd] * 2^b) mod 256; pc <- pc + 1` (R213, R214). -/
def SeqState.shiftLeft (q : SeqState) (rd : RegIx) (b : Byte) : SeqState :=
  q.put rd (BitVec.ofNat 8 ((readReg q.x rd).toNat * 2 ^ b.toNat % 256))

/-- `x[rd] <- floor(sext_8(x[rd]) / 2^b) mod 256; pc <- pc + 1` (R215, R216). -/
def SeqState.shiftRight (q : SeqState) (rd : RegIx) (b : Byte) : SeqState :=
  q.put rd (BitVec.ofInt 8 ((readReg q.x rd).toInt.fdiv (2 ^ b.toNat) % 256))

/-- `MemWrite(a, 1, v); pc <- pc + 1` (R233, R234). -/
def SeqState.store (q : SeqState) (a v : Byte) : SeqState :=
  { q with dm := writeCell q.dm a v, pc := pcSucc q.pc }

/-- `if cond then pc <- target else pc <- pc + 1` (R241 to R246). -/
def SeqState.goIf (q : SeqState) (cond : Bool) (target : Addr) : SeqState :=
  { q with pc := if cond = true then target else pcSucc q.pc }

/-- `(pc + s12) mod 4096`, `pc` being the branch's own address (R244). -/
def SeqState.relative (q : SeqState) (off : Int) : Addr :=
  BitVec.ofInt 12 (((q.pc.toNat : Int) + off) % 4096)

/-- The sequential view of each instruction (R200 to R216, R231 to R234, R241 to R246). -/
def seqExec (i : Instr) (q : SeqState) : SeqState :=
  match i with
  | .nop => { q with pc := pcSucc q.pc }
  | .movRR rd rs => q.put rd (readReg q.x rs)
  | .movRI rd imm => q.put rd imm
  | .addRR rd rs => q.addTo rd (readReg q.x rs)
  | .addRI rd imm => q.addTo rd imm
  | .subRR rd rs => q.subFrom rd (readReg q.x rs)
  | .subRI rd imm => q.subFrom rd imm
  | .andRR rd rs => q.putFlags rd (readReg q.x rd &&& readReg q.x rs) false
  | .andRI rd imm => q.putFlags rd (readReg q.x rd &&& imm) false
  | .orRR rd rs => q.putFlags rd (readReg q.x rd ||| readReg q.x rs) false
  | .orRI rd imm => q.putFlags rd (readReg q.x rd ||| imm) false
  | .xorRR rd rs => q.putFlags rd (readReg q.x rd ^^^ readReg q.x rs) false
  | .xorRI rd imm => q.putFlags rd (readReg q.x rd ^^^ imm) false
  | .shlRR rd rs => q.shiftLeft rd (readReg q.x rs)
  | .shlRI rd imm => q.shiftLeft rd imm
  | .sarRR rd rs => q.shiftRight rd (readReg q.x rs)
  | .sarRI rd imm => q.shiftRight rd imm
  | .ldRR rd rs => q.put rd (readCell q.dm (readReg q.x rs))
  | .ldRI rd imm => q.put rd (readCell q.dm imm)
  | .stRR rd rs => q.store (readReg q.x rs) (readReg q.x rd)
  | .stRI rd imm => q.store imm (readReg q.x rd)
  | .jmp a => q.goIf true a
  | .jz a => q.goIf q.z a
  | .jnz a => q.goIf (!q.z) a
  | .br off => q.goIf true (q.relative off)
  | .bz off => q.goIf q.z (q.relative off)
  | .bnz off => q.goIf (!q.z) (q.relative off)

/-- One instruction of a program: fetch at the program address, decode, execute. -/
def seqStep (program : List Word) (q : SeqState) : Except DecodeError SeqState :=
  match decode (fetch program q.pc) with
  | .ok i => .ok (seqExec i q)
  | .error err => .error err

/-- `n` instructions of a program. -/
def seqRun (program : List Word) : Nat → SeqState → Except DecodeError SeqState
  | 0, q => .ok q
  | n + 1, q =>
    match seqStep program q with
    | .ok q' => seqRun program n q'
    | .error err => .error err

/-- The sequential machine after reset (spec/10_state.md R39). -/
def SeqState.reset : SeqState := ⟨Vector.replicate 16 0#8, [], false, false, 0#12⟩

/-- Execute holds a fetched word of the program: not a bubble, and not the `nop` reset left there, which
has moved on after two clocks (spec/70_reset_and_hazards.md R292). -/
def executeHoldsProgramWord (s : State) : Bool := !s.e.fl && decide (2 ≤ s.cycle)

/-- Decode holds a fetched word of the program. -/
def decodeHoldsProgramWord (s : State) : Bool := !s.d.fl && decide (1 ≤ s.cycle)

/-- The address of the next instruction to execute: of the oldest program word not yet executed. -/
def nextToExecute (s : State) : Addr :=
  if executeHoldsProgramWord s = true then s.e.pc
  else if decodeHoldsProgramWord s = true then s.d.pc
  else s.f.pc

/-- The register file with the write of the instruction in MemoryAccess done (R133). -/
def settledRegs (s : State) : RegFile :=
  if s.m.rwe = true then writeReg s.x s.m.rd (writeBackValue s) else s.x

/-- The sequential state that a pipeline state shows: every instruction that has left Execute is done,
and no other. -/
def architectural (s : State) : SeqState :=
  ⟨settledRegs s, s.dm, s.m.z, s.m.c, nextToExecute s⟩

end Sys2Proof.Machine
end

