-- ==== Sys2Proof/Safety.lean ====
section
/-! DEFINITION. What counts as a safe run, and the terms the statements use: when an instruction executes,
what one clock does around it (which older effects land, how the younger words move), and the invariants
of the pipeline. -/

namespace Sys2Proof.Machine

/-! ### When an instruction executes -/

/-- "the load-use stall" of spec/40_pipeline_engine.md R144. -/
def Stalled (s : State) : Prop := s.stallEn = true ∧ s.m.rwe = true ∧ s.m.wsel = .mem

/-- The word in Execute executes in this clock: it "occupies Execute unflushed in a non-stall cycle"
(spec/41_alu_instructions.md R218). -/
def ExecutesNow (s : State) : Prop := s.e.fl = false ∧ ¬ Stalled s

/-- All three hazard policies are enabled (spec/10_state.md R33). -/
def AllPolicies (s : State) : Prop := s.fwdEn = true ∧ s.flushEn = true ∧ s.stallEn = true

/-! ### What a clock does around the instruction in Execute -/

/-- The instruction in MemoryAccess commits its register write and moves to Writeback (R133, R135):
every cell of `x` is as before but its destination, if its write enable is set. -/
def OlderRetires (s t : State) : Prop :=
  (∀ i, readReg t.x i = if s.m.rwe = true ∧ s.m.rd = i then writeBackValue s else readReg s.x i) ∧
  t.w = ⟨writeBackValue s, s.m.rd, s.m.rwe, s.m.wsel, s.m.pc, s.m.fl⟩

/-- The program and the policy inputs are the host's (R33, spec/20_memory.md R62), and the clock is
counted (R162). -/
def HostInputsKept (s t : State) : Prop :=
  t.program = s.program ∧ t.fwdEn = s.fwdEn ∧ t.flushEn = s.flushEn ∧ t.stallEn = s.stallEn ∧
  t.cycle = s.cycle + 1

/-- `F`, `D` and `E` advance with no redirect (R137 to R139, R157). -/
def FlowsOn (s t : State) : Prop :=
  t.e = s.d ∧ t.d = ⟨fetch s.program s.f.pc, s.f.pc, false⟩ ∧ t.f.pc = s.f.pc + 1#12

/-- `F`, `D` and `E` hold (R145). -/
def HoldsBack (s t : State) : Prop := t.e = s.e ∧ t.d = s.d ∧ t.f = s.f

/-- The program counter takes the target; with the flush policy the two younger words become bubbles, and
without it they go on (R157, R158, R164). -/
def Redirects (s t : State) (target : Addr) : Prop :=
  t.f.pc = target ∧
  (s.flushEn = true → t.e = ⟨0#18, s.d.pc, true⟩ ∧ t.d = ⟨0#18, s.f.pc, true⟩) ∧
  (s.flushEn = false → t.e = s.d ∧ t.d = ⟨fetch s.program s.f.pc, s.f.pc, false⟩)

/-- Every byte of data memory reads as before. -/
def DataUnchanged (s t : State) : Prop := ∀ a, readCell t.dm a = readCell s.dm a

/-- Cell `ea` holds `v` and every other byte of data memory reads as before (R134). -/
def DataStored (s t : State) (ea v : Byte) : Prop :=
  ∀ a, readCell t.dm a = if a = ea then v else readCell s.dm a

/-- What every clock does that neither redirects nor stalls nor stores. -/
def PlainClock (s t : State) : Prop :=
  OlderRetires s t ∧ HostInputsKept s t ∧ FlowsOn s t ∧ DataUnchanged s t

/-- The instruction enters MemoryAccess with result `v` for cell `rd`, an enabled register write of the
ALU result, and the flags `z`, `c`; `a` is its operand A. -/
def WritesResult (s t : State) (rd : RegIx) (a v : Byte) (z c : Bool) : Prop :=
  PlainClock s t ∧ t.m = ⟨v, a, z, c, rd, true, .alu, false, s.e.pc, false⟩

/-- The instruction enters MemoryAccess as a load of cell `ea` into `rd`; the flags are kept. -/
def EntersAsLoad (s t : State) (rd : RegIx) (a ea : Byte) : Prop :=
  PlainClock s t ∧ t.m = ⟨ea, a, s.m.z, s.m.c, rd, true, .mem, false, s.e.pc, false⟩

/-- The instruction stores operand A `v` at `ea` and enters MemoryAccess with no register write; the flags
are kept. -/
def EntersAsStore (s t : State) (rd : RegIx) (v ea : Byte) : Prop :=
  OlderRetires s t ∧ HostInputsKept s t ∧ FlowsOn s t ∧ DataStored s t ea v ∧
  t.m = ⟨ea, v, s.m.z, s.m.c, rd, false, .alu, true, s.e.pc, false⟩

/-- MemoryAccess receives a slot that writes nothing, whose ALU passed operand A, cell `ra`; the flags
are kept. `bubble` says whether the slot counts as a bubble. -/
def EntersInert (s t : State) (ra : RegIx) (bubble : Bool) : Prop :=
  t.m = ⟨regOperand s ra, regOperand s ra, s.m.z, s.m.c, ra, false, .alu, false, s.e.pc, bubble⟩

/-- A transfer leaves Execute: it writes nothing, and redirects exactly when `go`. -/
def Transfers (s t : State) (ra : RegIx) (go : Bool) (target : Addr) : Prop :=
  OlderRetires s t ∧ HostInputsKept s t ∧ DataUnchanged s t ∧ EntersInert s t ra false ∧
  (go = true → Redirects s t target) ∧ (go = false → FlowsOn s t)

/-! ### Safe runs -/

/-- Every word that the engine may still execute has a descriptor (spec/30_encoding.md R106): the bound
program's and the unflushed ones in `D` and `E`. A safe run is one whose states are all like this. -/
def WordsDefined (s : State) : Prop :=
  (∀ w ∈ s.program, wordDefined w = true) ∧ (s.d.fl = false → wordDefined s.d.ir = true) ∧
  (s.e.fl = false → wordDefined s.e.ir = true)

/-- Writeback mirrors the register file (spec/40_pipeline_engine.md R167). -/
def WritebackMirrors (s : State) : Prop := s.w.rwe = true → readReg s.x s.w.rd = s.w.val

/-- Which words and addresses the pipeline holds while the flush policy is on: the two `nop`s of reset
move out in two clocks (spec/70_reset_and_hazards.md R292), every unflushed later word is the program's
at its address, consecutive stages hold consecutive addresses (spec/40_pipeline_engine.md R165), and a
flushed slot holds the word 0 (spec/10_state.md R27, R28). -/
structure PipelineShape (s : State) : Prop where
  atReset : s.cycle = 0 → s.e = Slot.reset ∧ s.d = Slot.reset ∧ s.f.pc = 0#12
  afterOne : s.cycle = 1 → s.e = Slot.reset
  noEarlyWrite : s.cycle ≤ 1 → s.m.rwe = false
  decodeWord : 1 ≤ s.cycle → s.d.fl = false →
    s.d.ir = fetch s.program s.d.pc ∧ s.f.pc = s.d.pc + 1#12
  executeWord : 2 ≤ s.cycle → s.e.fl = false →
    s.e.ir = fetch s.program s.e.pc ∧ s.d.fl = false ∧ s.d.pc = s.e.pc + 1#12
  decodeFlushed : s.d.fl = true → s.d.ir = 0#18
  executeFlushed : s.e.fl = true → s.e.ir = 0#18

/-- How many of the next `k` clocks execute a program word: clocks with one in Execute and no stall. -/
def executedWithin : Nat → State → Nat
  | 0, _ => 0
  | k + 1, s =>
    let now := if executeHoldsProgramWord s = true ∧ stallCondition s = false then 1 else 0
    match step s with
    | .next t => now + executedWithin k t
    | .fault _ => now
    | .refused _ => now

/-! ### Assembler lines -/

/-- The lines that consume a program address: those with a token that is no label (spec/30_encoding.md
R111). -/
def instructionLines (lines : List (Nat × List Token)) : Nat :=
  lines.countP (fun l => !l.2.all isLabelToken)

/-! ### Words -/

/-- The opcodes of format `RR` (R101). -/
def opcodesRR : List Nat := [1, 3, 5, 7, 9, 11, 13, 15, 17, 19]

/-- A word whose unused operand bits are 0 (R100, R105). -/
def canonicalWord (w : Word) : Bool :=
  (decide ((opcodeOf w).toNat ≠ 0) || decide (w.extractLsb' 0 12 = 0#12)) &&
    (decide ((opcodeOf w).toNat ∉ opcodesRR) || decide (w.extractLsb' 0 4 = 0#4))

/-! ### Display-only fields (spec/10_state.md R40) -/

/-- The state with its display-only fields blanked. -/
def eraseDisplay (s : State) : State :=
  { s with
    m := { s.m with sd := 0#8, mwe := false, pc := 0#12, fl := false }
    w := { s.w with wsel := .alu, pc := 0#12, fl := false } }

/-- The outcome with its display-only fields blanked. -/
def eraseOutcome : Host.Outcome State Fault Refusal → Host.Outcome State Fault Refusal
  | .next s => .next (eraseDisplay s)
  | .fault r => .fault r
  | .refused r => .refused r

end Sys2Proof.Machine
end

