-- ==== Sys2Proof/Certificates/Slice0/Obligations.lean ====
section
/-! DEFINITION. The statements for the provers. Rule numbers are those of spec/. Most rules of this spec
carry a "[decision: …]" or "[derived: …]" mark; a statement that rests on one is 'derived' in
OBLIGATIONS.json and its docstring names the decision. -/

open Sys2Proof Sys2Proof.Machine

/-! ### Encoding -/

/-- Words of spec/95_test_vectors.md V1 and V2, one for each family, decode to the instructions they stand
for. -/
def Obligations.SpecWordsDecode : Prop :=
  decode 0x00000#18 = .ok .nop ∧
  decode 0x02005#18 = .ok (.movRI 0#4 5#8) ∧
  decode 0x03010#18 = .ok (.addRR 0#4 1#4) ∧
  decode 0x05340#18 = .ok (.subRR 3#4 4#4) ∧
  decode 0x0A580#18 = .ok (.orRI 5#4 0x80#8) ∧
  decode 0x10102#18 = .ok (.sarRI 1#4 2#8) ∧
  decode 0x11120#18 = .ok (.ldRR 1#4 2#4) ∧
  decode 0x14010#18 = .ok (.stRI 0#4 0x10#8) ∧
  decode 0x1500A#18 = .ok (.jmp 10#12) ∧
  decode 0x1AFFE#18 = .ok (.bnz (-2)) ∧
  decode 0x1B000#18 = .error (.noDescriptor 27#6)

/-- Decoding the word of a well-formed instruction gives it back, with every operand at every value
(spec/30_encoding.md section 2, the round trip). -/
def Obligations.DecodeOfEncode : Prop :=
  ∀ i : Instr, i.wf = true → decode (encode i) = .ok i

/-- Conversely, re-encoding what a word with unused bits 0 decodes to gives the word. -/
def Obligations.EncodeOfDecodeOnCanonicalWords : Prop :=
  ∀ (w : Word) (i : Instr), decode w = .ok i → canonicalWord w = true → encode i = w

/-- Every descriptor with in-range operand values builds a word that decodes to an instruction of that
descriptor with those operands. -/
def Obligations.DescriptorRoundTrip : Prop :=
  ∀ d ∈ descriptors, ∀ vs : List Int, operandsInRange d.fields vs = true →
    ∃ i, decode (encodeDescriptor d vs) = .ok i ∧ i.opcode = d.opcode ∧ i.operands = vs ∧ i.wf = true

/-- R91: the word is the opcode in bits 17 to 12 over the operand fields, packed at their descriptor's
offsets within bits 11 to 0. -/
def Obligations.WordLayout : Prop :=
  ∀ i : Instr, ∃ d, descriptors[i.opcode]? = some d ∧ d.opcode = i.opcode ∧
    encodeOperands d.fields i.operands < 4096 ∧
    (encode i).toNat = i.opcode * 4096 + encodeOperands d.fields i.operands ∧
    (opcodeOf (encode i)).toNat = i.opcode

/-- Two words that differ only in unused bits (the low 4 of format `RR`, the low 12 of `nop`) decode alike:
the spec's decision D4 (spec/30_encoding.md section 2). -/
def Obligations.UnusedBitsAreIgnored : Prop :=
  ∀ v w : Word, opcodeOf v = opcodeOf w →
    ((opcodeOf w).toNat ∈ opcodesRR → fieldRd v = fieldRd w ∧ fieldRs v = fieldRs w) →
    ((opcodeOf w).toNat ≠ 0 → (opcodeOf w).toNat ∉ opcodesRR → fieldAddr v = fieldAddr w) →
    decode v = decode w

/-- R102: exactly the opcodes 27 to 63 have no descriptor, and an unflushed word with such an opcode in
Execute stops the engine, whatever the rest of the state (a stall too): nothing traps. -/
def Obligations.UndefinedOpcodesStopTheEngine : Prop :=
  (∀ w : Word, 27 ≤ (opcodeOf w).toNat ↔ decode w = .error (.noDescriptor (opcodeOf w))) ∧
  (∀ s : State, s.e.fl = false → 27 ≤ (opcodeOf s.e.ir).toNat →
    step s = .fault (.engineFault (opcodeOf s.e.ir)))

/-! ### The step -/

/-- R142: the looked-up control set is the control table's row for the opcode alone; with no row, the
engine faults. -/
def Obligations.OpcodeDispatch : Prop :=
  (∀ s : State, s.e.fl = false → (opcodeOf s.e.ir).toNat < 27 →
    ∃ k, controlTable[(opcodeOf s.e.ir).toNat]? = some k ∧ lookupControl s = .ok k) ∧
  (∀ s t : State, s.e.fl = t.e.fl → opcodeOf s.e.ir = opcodeOf t.e.ir →
    lookupControl s = lookupControl t) ∧
  (∀ s : State, s.e.fl = false → 27 ≤ (opcodeOf s.e.ir).toNat →
    lookupControl s = .error (.engineFault (opcodeOf s.e.ir)) ∧
    step s = .fault (.engineFault (opcodeOf s.e.ir)))

/-- A step runs the decoded instruction: the word in Execute, when it is not flushed (log entry 6: `exec`
is the whole clock, so nothing is added around it). -/
def Obligations.StepRunsTheDecodedInstruction : Prop :=
  ∀ (s : State) (i : Instr), s.e.fl = false → decode s.e.ir = .ok i → step s = exec i s

/-- The word that `withFetchWord` places is the instruction the very next step runs, and it executes (the
model's own convention, log entry 5). -/
def Obligations.PlacedWordRunsNext : Prop :=
  ∀ (s : State) (nbits w : Nat) (i : Instr), decodeTableWord nbits w = some i →
    ExecutesNow (s.withFetchWord nbits w) ∧
    step (s.withFetchWord nbits w) = exec i (s.withFetchWord nbits w)

/-- R143: the effective control set is inert for a flushed slot and in a stall and is the looked-up one
otherwise; and an inert slot writes no memory, will write no register, keeps the flags and takes no
branch. -/
def Obligations.InertSlots : Prop :=
  (∀ (s : State) (k : Ctl) (c : Comb), lookupControl s = .ok k → inspect s = .ok c →
    (s.e.fl = true → c.ctl = Ctl.inert) ∧ (s.e.fl = false → Stalled s → c.ctl = Ctl.inert) ∧
    (ExecutesNow s → c.ctl = k)) ∧
  (∀ s t : State, ¬ ExecutesNow s → step s = .next t →
    t.dm = s.dm ∧ t.m.rwe = false ∧ t.m.mwe = false ∧ t.m.z = s.m.z ∧ t.m.c = s.m.c ∧
    (t.f.pc = s.f.pc ∨ t.f.pc = s.f.pc + 1#12))

/-- The machine's step, which decodes and runs one meaning per instruction, is the spec's listing of the
whole clock (spec/40_pipeline_engine.md section 7), which looks the opcode up in the control table. -/
def Obligations.StepIsTheListing : Prop :=
  ∀ s : State, step s = clockListing s

/-- What the host reads between two clocks is what the next clock latches: `S' = latch(S, comb(S))`, and a
fault where `comb` raises one (spec/40_pipeline_engine.md section 1). -/
def Obligations.StepLatchesWhatInspectShows : Prop :=
  ∀ s : State,
    (∀ c, inspect s = .ok c → step s = .next (latch s c)) ∧
    (∀ r, inspect s = .error r → step s = .fault r)

/-- R151: operand B is the zero-extended immediate when the control set says so, forwarding never replacing
it, and the forwarded register otherwise. -/
def Obligations.OperandBRule : Prop :=
  ∀ (s : State) (c : Comb), inspect s = .ok c →
    (c.ctl.bSel = .imm → c.eB = fieldImm s.e.ir) ∧
    (c.ctl.bSel = .reg → c.eB = forward s (fieldRs s.e.ir) (readReg s.x (fieldRs s.e.ir)))

/-- What the host is shown of Execute hangs together: the table's row for the opcode, which is the looked-up
control set of an unflushed word; the register file's cells before forwarding, and the operands forwarded
from them; the raw ALU flags, which are there exactly when the flags are written, and the flags leaving
Execute, taken from them or held (spec/40_pipeline_engine.md sections 1, 3 and 4; decisions D7 to D10, D33;
that raw flags nothing gives are absent is log entry 9). -/
def Obligations.InspectionShowsRawAndForwardedValues : Prop :=
  ∀ (s : State) (c : Comb), inspect s = .ok c →
    c.ctl0 = controlTable[(opcodeOf s.e.ir).toNat]? ∧
    (s.e.fl = false → ∃ k, c.ctl0 = some k ∧ lookupControl s = .ok k) ∧
    c.aRaw = readReg s.x (fieldRd s.e.ir) ∧ c.bRaw = readReg s.x (fieldRs s.e.ir) ∧
    c.eA = forward s (fieldRd s.e.ir) c.aRaw ∧
    (c.ctl.bSel = .reg → c.eB = forward s (fieldRs s.e.ir) c.bRaw) ∧
    c.eRes = aluResult c.ctl.aluOp c.eA c.eB ∧ c.aluZC = aluFlags c.ctl.aluOp c.eA c.eB ∧
    (c.eFwe = true → c.aluZC = some c.eFlags) ∧
    (c.eFwe = false → c.aluZC = none ∧ c.eFlags = ⟨s.m.z, s.m.c⟩)

/-! ### What each instruction does (engine view), with its frame

`PlainClock` and `WritesResult` say the frame whole: every cell of `x` but the one the older instruction
in MemoryAccess commits, every byte of data memory, the program, the policy inputs and both flags where
they are not written are as before, and every stage register is given. -/

/-- `nop` executes: it writes nothing (spec/41_alu_instructions.md section 2; decision D2). What it leaves
in `M.res` is display only (log entry 8). -/
def Obligations.NopCompletes : Prop :=
  ∀ s : State, ExecutesNow s → ∃ t, exec .nop s = .next t ∧ PlainClock s t ∧
    EntersInert s t (fieldRd s.e.ir) false

/-- `mov rd rs` executes: operand B goes to `x[rd]`, the flags are kept (spec/41_alu_instructions.md
section 3; decision D1). -/
def Obligations.MoveRegisterCompletes : Prop :=
  ∀ (s : State) (rd rs : RegIx), ExecutesNow s → ∃ t, exec (.movRR rd rs) s = .next t ∧
    WritesResult s t rd (regOperand s rd) (regOperand s rs) s.m.z s.m.c

/-- R202, `mov rd imm8`, whole: its encoding, its control set, the engine view (the immediate is never
forwarded over, the flags are unchanged), the write of `x[rd]` one clock later, the sequential view, and
the rule's example. -/
def Obligations.MoveImmediateRule : Prop :=
  (∀ (rd : RegIx) (imm : Byte), (encode (.movRI rd imm)).toNat = 2 * 4096 + rd.toNat * 256 + imm.toNat) ∧
  controlTable[2]? = some ⟨.passB, .imm, true, .alu, false, .none, .always⟩ ∧
  (∀ (s : State) (rd : RegIx) (imm : Byte), ExecutesNow s → ∃ t, exec (.movRI rd imm) s = .next t ∧
    WritesResult s t rd (regOperand s rd) imm s.m.z s.m.c ∧
    ∀ u, step t = .next u → readReg u.x rd = imm) ∧
  (∀ (q : SeqState) (rd : RegIx) (imm : Byte),
    seqExec (.movRI rd imm) q = { q with x := writeReg q.x rd imm, pc := q.pc + 1#12 }) ∧
  encode (.movRI 0#4 5#8) = 0x02005#18

/-- R203, `add rd rs`, whole: its encoding, its control set, the engine view with both flags, the write of
`x[rd]` one clock later, the sequential view with its corner cases, and the rule's example word. -/
def Obligations.AddRegisterRule : Prop :=
  (∀ rd rs : RegIx, (encode (.addRR rd rs)).toNat = 3 * 4096 + rd.toNat * 256 + rs.toNat * 16) ∧
  controlTable[3]? = some ⟨.add, .reg, true, .alu, false, .none, .always⟩ ∧
  (∀ (s : State) (rd rs : RegIx), ExecutesNow s → ∃ t, exec (.addRR rd rs) s = .next t ∧
    WritesResult s t rd (regOperand s rd) (regOperand s rd + regOperand s rs)
      (decide (regOperand s rd + regOperand s rs = 0#8))
      (decide (256 ≤ (regOperand s rd).toNat + (regOperand s rs).toNat)) ∧
    ∀ u, step t = .next u → readReg u.x rd = regOperand s rd + regOperand s rs) ∧
  (∀ (q : SeqState) (rd rs : RegIx) (a b : Byte), readReg q.x rd = a → readReg q.x rs = b →
    seqExec (.addRR rd rs) q =
      { x := writeReg q.x rd (a + b), dm := q.dm, z := decide (a + b = 0#8),
        c := decide (256 ≤ a.toNat + b.toNat), pc := q.pc + 1#12 }) ∧
  (∀ (q : SeqState) (rd : RegIx),
    readReg (seqExec (.addRR rd rd) q).x rd = BitVec.ofNat 8 (2 * (readReg q.x rd).toNat)) ∧
  encode (.addRR 0#4 1#4) = 0x03010#18

/-- R204, `add rd imm8`, whole: its encoding, its control set, the engine view with both flags, the write of
`x[rd]` one clock later, the sequential view with its corner cases (adding 255 is a decrement, with a
carry unless the cell is 0; adding 0 leaves the cell), and the rule's example word. -/
def Obligations.AddImmediateRule : Prop :=
  (∀ (rd : RegIx) (imm : Byte), (encode (.addRI rd imm)).toNat = 4 * 4096 + rd.toNat * 256 + imm.toNat) ∧
  controlTable[4]? = some ⟨.add, .imm, true, .alu, false, .none, .always⟩ ∧
  (∀ (s : State) (rd : RegIx) (imm : Byte), ExecutesNow s → ∃ t, exec (.addRI rd imm) s = .next t ∧
    WritesResult s t rd (regOperand s rd) (regOperand s rd + imm)
      (decide (regOperand s rd + imm = 0#8))
      (decide (256 ≤ (regOperand s rd).toNat + imm.toNat)) ∧
    ∀ u, step t = .next u → readReg u.x rd = regOperand s rd + imm) ∧
  (∀ (q : SeqState) (rd : RegIx) (imm a : Byte), readReg q.x rd = a →
    seqExec (.addRI rd imm) q =
      { x := writeReg q.x rd (a + imm), dm := q.dm, z := decide (a + imm = 0#8),
        c := decide (256 ≤ a.toNat + imm.toNat), pc := q.pc + 1#12 }) ∧
  (∀ (q : SeqState) (rd : RegIx) (a : Byte), readReg q.x rd = a →
    readReg (seqExec (.addRI rd 255#8) q).x rd = a - 1#8 ∧
    (seqExec (.addRI rd 255#8) q).c = decide (a ≠ 0#8) ∧
    readReg (seqExec (.addRI rd 0#8) q).x rd = a ∧
    (seqExec (.addRI rd 0#8) q).z = decide (a = 0#8) ∧ (seqExec (.addRI rd 0#8) q).c = false) ∧
  encode (.addRI 0#4 1#8) = 0x04001#18

/-- `sub` in both forms executes: operand A minus operand B goes to `x[rd]`, `Z` from the result, `C` is
the borrow (spec/41_alu_instructions.md section 4; decisions D1, D7). -/
def Obligations.SubtractCompletes : Prop :=
  ∀ (s : State) (rd : RegIx), ExecutesNow s →
    (∀ rs : RegIx, ∃ t, exec (.subRR rd rs) s = .next t ∧
      WritesResult s t rd (regOperand s rd) (regOperand s rd - regOperand s rs)
        (decide (regOperand s rd - regOperand s rs = 0#8))
        (decide ((regOperand s rd).toNat < (regOperand s rs).toNat))) ∧
    (∀ imm : Byte, ∃ t, exec (.subRI rd imm) s = .next t ∧
      WritesResult s t rd (regOperand s rd) (regOperand s rd - imm)
        (decide (regOperand s rd - imm = 0#8)) (decide ((regOperand s rd).toNat < imm.toNat)))

/-- `and`, `or`, `xor` in both forms execute: bit by bit, `Z` from the result, `C` written 0
(spec/41_alu_instructions.md section 5; decisions D1, D7). -/
def Obligations.LogicCompletes : Prop :=
  ∀ (s : State) (rd : RegIx), ExecutesNow s →
    (∀ rs : RegIx,
      (∃ t, exec (.andRR rd rs) s = .next t ∧
        WritesResult s t rd (regOperand s rd) (regOperand s rd &&& regOperand s rs)
          (decide (regOperand s rd &&& regOperand s rs = 0#8)) false) ∧
      (∃ t, exec (.orRR rd rs) s = .next t ∧
        WritesResult s t rd (regOperand s rd) (regOperand s rd ||| regOperand s rs)
          (decide (regOperand s rd ||| regOperand s rs = 0#8)) false) ∧
      (∃ t, exec (.xorRR rd rs) s = .next t ∧
        WritesResult s t rd (regOperand s rd) (regOperand s rd ^^^ regOperand s rs)
          (decide (regOperand s rd ^^^ regOperand s rs = 0#8)) false)) ∧
    (∀ imm : Byte,
      (∃ t, exec (.andRI rd imm) s = .next t ∧
        WritesResult s t rd (regOperand s rd) (regOperand s rd &&& imm)
          (decide (regOperand s rd &&& imm = 0#8)) false) ∧
      (∃ t, exec (.orRI rd imm) s = .next t ∧
        WritesResult s t rd (regOperand s rd) (regOperand s rd ||| imm)
          (decide (regOperand s rd ||| imm = 0#8)) false) ∧
      (∃ t, exec (.xorRI rd imm) s = .next t ∧
        WritesResult s t rd (regOperand s rd) (regOperand s rd ^^^ imm)
          (decide (regOperand s rd ^^^ imm = 0#8)) false))

/-- `shl` and `sar` in both forms execute: operand A shifted by the whole 8-bit operand B, the flags kept
(spec/41_alu_instructions.md section 6; decisions D1, D6). -/
def Obligations.ShiftCompletes : Prop :=
  ∀ (s : State) (rd : RegIx), ExecutesNow s →
    (∀ rs : RegIx,
      (∃ t, exec (.shlRR rd rs) s = .next t ∧
        WritesResult s t rd (regOperand s rd) (regOperand s rd <<< (regOperand s rs).toNat)
          s.m.z s.m.c) ∧
      (∃ t, exec (.sarRR rd rs) s = .next t ∧
        WritesResult s t rd (regOperand s rd) ((regOperand s rd).sshiftRight (regOperand s rs).toNat)
          s.m.z s.m.c)) ∧
    (∀ imm : Byte,
      (∃ t, exec (.shlRI rd imm) s = .next t ∧
        WritesResult s t rd (regOperand s rd) (regOperand s rd <<< imm.toNat) s.m.z s.m.c) ∧
      (∃ t, exec (.sarRI rd imm) s = .next t ∧
        WritesResult s t rd (regOperand s rd) ((regOperand s rd).sshiftRight imm.toNat) s.m.z s.m.c))

/-- `ld` in both forms executes: the address enters MemoryAccess with the register write enabled and the
memory selected (spec/42_load_store.md section 2; decisions D1, D28). -/
def Obligations.LoadCompletes : Prop :=
  ∀ (s : State) (rd : RegIx), ExecutesNow s →
    (∀ rs : RegIx, ∃ t, exec (.ldRR rd rs) s = .next t ∧
      EntersAsLoad s t rd (regOperand s rd) (regOperand s rs)) ∧
    (∀ imm : Byte, ∃ t, exec (.ldRI rd imm) s = .next t ∧ EntersAsLoad s t rd (regOperand s rd) imm)

/-- `st` in both forms executes: exactly the byte at the address operand B gives takes operand A, no
register is written, the flags are kept (spec/42_load_store.md section 3; decisions D1, D28). -/
def Obligations.StoreCompletes : Prop :=
  ∀ (s : State) (rd : RegIx), ExecutesNow s →
    (∀ rs : RegIx, ∃ t, exec (.stRR rd rs) s = .next t ∧
      EntersAsStore s t rd (regOperand s rd) (regOperand s rs)) ∧
    (∀ imm : Byte, ∃ t, exec (.stRI rd imm) s = .next t ∧ EntersAsStore s t rd (regOperand s rd) imm)

/-- `jmp`, `jz`, `jnz` execute: the program counter takes the absolute address when the condition holds on
the latched `Z`, the two younger words are squashed with the flush policy and go on without it, and
nothing is written (spec/43_control_transfer.md section 2; decisions D1, D14, D29). -/
def Obligations.JumpCompletes : Prop :=
  ∀ (s : State) (a : Addr), ExecutesNow s →
    (∃ t, exec (.jmp a) s = .next t ∧ Transfers s t (a.extractLsb' 8 4) true a) ∧
    (∃ t, exec (.jz a) s = .next t ∧ Transfers s t (a.extractLsb' 8 4) s.m.z a) ∧
    (∃ t, exec (.jnz a) s = .next t ∧ Transfers s t (a.extractLsb' 8 4) (!s.m.z) a)

/-- `br`, `bz`, `bnz` execute with every offset in range: the target is the branch's own address plus the
offset, mod 4096 (spec/43_control_transfer.md section 3; decisions D1, D14, D15, D29). -/
def Obligations.BranchCompletes : Prop :=
  ∀ (s : State) (off : Int), ExecutesNow s → -2048 ≤ off → off ≤ 2047 →
    (∃ t, exec (.br off) s = .next t ∧
      Transfers s t ((BitVec.ofInt 12 off).extractLsb' 8 4) true
        (BitVec.ofInt 12 ((s.e.pc.toNat + off) % 4096))) ∧
    (∃ t, exec (.bz off) s = .next t ∧
      Transfers s t ((BitVec.ofInt 12 off).extractLsb' 8 4) s.m.z
        (BitVec.ofInt 12 ((s.e.pc.toNat + off) % 4096))) ∧
    (∃ t, exec (.bnz off) s = .next t ∧
      Transfers s t ((BitVec.ofInt 12 off).extractLsb' 8 4) (!s.m.z)
        (BitVec.ofInt 12 ((s.e.pc.toNat + off) % 4096)))

/-! ### Stall, flush, commit -/

/-- In a load-use stall every instruction waits: the front three stages hold, the load commits, and
MemoryAccess receives a bubble, so the stall lasts exactly one clock (spec/40_pipeline_engine.md section
3; decisions D11, D12, D31). -/
def Obligations.StallHoldsForOneClock : Prop :=
  ∀ (s : State) (i : Instr), s.e.fl = false → Stalled s →
    ∃ t, exec i s = .next t ∧ OlderRetires s t ∧ HostInputsKept s t ∧ HoldsBack s t ∧
      DataUnchanged s t ∧ t.m.rwe = false ∧ t.m.mwe = false ∧ t.m.wsel = .alu ∧
      t.m.z = s.m.z ∧ t.m.c = s.m.c ∧ t.m.pc = s.e.pc ∧ t.m.fl = true ∧ ¬ Stalled t

/-- R158: the flush controls are asserted exactly when a transfer is taken and the flush policy is on; then
the two younger words become bubbles, the program counter takes the target, the bubbles write nothing,
and the target's word is in Execute three clocks after the transfer: a fixed 2-cycle penalty. -/
def Obligations.TakenTransferSquashesTwo : Prop :=
  ∀ (s : State) (c : Comb), inspect s = .ok c →
    (c.eTaken = true ↔ c.ctl.br ≠ .none ∧ (c.ctl.cond = .always ∨ (c.ctl.cond = .z ∧ s.m.z = true) ∨
      (c.ctl.cond = .nz ∧ s.m.z = false))) ∧
    (c.fFlush = true ↔ c.eTaken = true ∧ s.flushEn = true) ∧ c.dFlush = c.fFlush ∧
    (c.fFlush = true → ∃ target t u v, c.eTgt = some target ∧
      step s = .next t ∧ step t = .next u ∧ step u = .next v ∧
      t.f.pc = target ∧ t.e = ⟨0#18, s.d.pc, true⟩ ∧ t.d = ⟨0#18, s.f.pc, true⟩ ∧
      DataUnchanged t u ∧ u.m.rwe = false ∧ u.m.z = t.m.z ∧ u.m.c = t.m.c ∧
      DataUnchanged u v ∧ v.m.rwe = false ∧ v.m.z = u.m.z ∧ v.m.c = u.m.c ∧
      v.e = ⟨fetch s.program target, target, false⟩)

/-- In every clock the instruction in MemoryAccess commits and moves to Writeback: its destination cell
takes the memory read or the ALU result when its write enable is set, and every other cell is as before
(spec/40_pipeline_engine.md section 2; decision D9). -/
def Obligations.EveryClockRetiresTheOlderInstruction : Prop :=
  ∀ s t : State, step s = .next t → OlderRetires s t

/-- A load delivers: the clock after it executes, `x[rd]` holds the byte its address held, whatever the
policies and whatever is in Execute behind it (spec/42_load_store.md section 2; decisions D9, D28). -/
def Obligations.LoadDeliversTheCell : Prop :=
  ∀ (s t u : State) (rd : RegIx), ExecutesNow s → step t = .next u →
    (∀ rs : RegIx, exec (.ldRR rd rs) s = .next t →
      readReg u.x rd = readCell s.dm (regOperand s rs)) ∧
    (∀ imm : Byte, exec (.ldRI rd imm) s = .next t → readReg u.x rd = readCell s.dm imm)

/-- A store immediately followed by a load of the same cell is seen by the load, in every policy setting
and with either address form in each: absolute, or in a register whose operand is that address in the
clock in which it is used (spec/20_memory.md section 3; decisions D9, D28). -/
def Obligations.LoadSeesTheStoreBeforeIt : Prop :=
  ∀ (s t u v : State) (rs rd ra rb : RegIx) (a : Byte), ExecutesNow s → ExecutesNow t →
    (exec (.stRI rs a) s = .next t ∨ (exec (.stRR rs ra) s = .next t ∧ regOperand s ra = a)) →
    (exec (.ldRI rd a) t = .next u ∨ (exec (.ldRR rd rb) t = .next u ∧ regOperand t rb = a)) →
    step u = .next v →
    readReg v.x rd = regOperand s rs

/-! ### Rules about every step -/

/-- Every clock counts one, stall cycles included (spec/40_pipeline_engine.md section 2); and the program and
the policy inputs are as before. That these inputs are fields which a step could change and does not is
the model's choice (log entries 3 and 4), drawn from spec/10_state.md section 5 and spec/20_memory.md
section 1. -/
def Obligations.EveryClockCountsOne : Prop :=
  ∀ s t : State, step s = .next t → t.cycle = s.cycle + 1 ∧ HostInputsKept s t

/-- R63: a fetch reads the program's word inside it and 0 at or beyond its end, for every address, and that
is the word Decode receives, wherever the program counter came from. -/
def Obligations.FetchReadsTheProgramOrZero : Prop :=
  (∀ (p : List Word) (a : Addr), (∀ h : a.toNat < p.length, fetch p a = p[a.toNat]) ∧
    (p.length ≤ a.toNat → fetch p a = 0#18)) ∧
  (∀ s t : State, step s = .next t → ¬ Stalled s → t.d.fl = false →
    t.d.ir = fetch s.program s.f.pc ∧ t.d.pc = s.f.pc)

/-- Only `st` changes a byte of data memory (spec/20_memory.md section 3). -/
def Obligations.OnlyStoresChangeDataMemory : Prop :=
  ∀ (s t : State) (a : Byte), step s = .next t → readCell t.dm a ≠ readCell s.dm a →
    ExecutesNow s ∧ ((opcodeOf s.e.ir).toNat = 19 ∨ (opcodeOf s.e.ir).toNat = 20)

/-- Only `add`, `sub`, `and`, `or`, `xor` change a flag (spec/10_state.md section 4; decision D8). -/
def Obligations.OnlyArithmeticAndLogicChangeFlags : Prop :=
  ∀ s t : State, step s = .next t → (t.m.z ≠ s.m.z ∨ t.m.c ≠ s.m.c) →
    ExecutesNow s ∧ 3 ≤ (opcodeOf s.e.ir).toNat ∧ (opcodeOf s.e.ir).toNat ≤ 12

/-- The program counter increments in every clock, but when a stall holds it or a jump or branch executes
(spec/10_state.md section 2; decision D16). -/
def Obligations.OnlyTransfersLeaveTheStraightLine : Prop :=
  ∀ s t : State, step s = .next t → t.f.pc ≠ s.f.pc + 1#12 →
    (Stalled s ∧ t.f = s.f) ∨
    (ExecutesNow s ∧ 21 ≤ (opcodeOf s.e.ir).toNat ∧ (opcodeOf s.e.ir).toNat ≤ 26)

/-! ### Reset -/

/-- The state after reset: every field the spec lists is 0, no policy input was ever set, so each is 1, and
the program is the empty one (spec/10_state.md section 9, decisions D18, D30; the empty program is the
model's choice, log entry 4). -/
def Obligations.ResetState : Prop :=
  (∀ i, readReg State.reset.x i = 0#8) ∧ (∀ a, readCell State.reset.dm a = 0#8) ∧
  State.reset.f.pc = 0#12 ∧ State.reset.d = ⟨0#18, 0#12, false⟩ ∧ State.reset.e = ⟨0#18, 0#12, false⟩ ∧
  State.reset.m = ⟨0#8, 0#8, false, false, 0#4, false, .alu, false, 0#12, false⟩ ∧
  State.reset.w = ⟨0#8, 0#4, false, .alu, 0#12, false⟩ ∧ State.reset.cycle = 0 ∧
  State.reset.program = [] ∧
  State.reset.fwdEn = true ∧ State.reset.flushEn = true ∧ State.reset.stallEn = true

/-- `reset(program)` binds a well-formed program from any state, keeps the policy inputs and gives the
reset values; it refuses exactly the programs that are not well formed (spec/70_reset_and_hazards.md
section 1, spec/30_encoding.md section 4; decisions D18, D20; log entry 12). -/
def Obligations.HostResetBindsOrRefuses : Prop :=
  ∀ (p : List Word) (s : State),
    (programWf p = true → ∃ t, hostReset p s = .next t ∧
      t = { State.reset with
        program := p, fwdEn := s.fwdEn, flushEn := s.flushEn, stallEn := s.stallEn }) ∧
    (4096 < p.length → hostReset p s = .refused (.programTooLong p.length)) ∧
    (p.length ≤ 4096 → (∃ w ∈ p, wordDefined w = false) → hostReset p s = .refused .undefinedWord)

/-- Reset establishes every invariant that the statements below name, with every program it accepts: the
canonical memory form (the model's, log entry 14), defined words, a Writeback that mirrors the register
file, the memory select only with a register write, and the pipeline shape. That `hostReset` answers no
state for a program that is not well formed is log entry 12. -/
def Obligations.ResetEstablishesTheInvariants : Prop :=
  (Memory.wf State.reset.dm = true ∧ WordsDefined State.reset ∧ WritebackMirrors State.reset ∧
    (State.reset.m.wsel = .mem → State.reset.m.rwe = true) ∧ PipelineShape State.reset) ∧
  (∀ (p : List Word) (s t : State), hostReset p s = .next t →
    Memory.wf t.dm = true ∧ WordsDefined t ∧ WritebackMirrors t ∧
    (t.m.wsel = .mem → t.m.rwe = true) ∧ PipelineShape t)

/-! ### Invariants that every step keeps -/

/-- Every step keeps the data memory in its canonical form (the form is the model's, log entry 14). -/
def Obligations.StepKeepsMemoryCanonical : Prop :=
  ∀ s t : State, Memory.wf s.dm = true → step s = .next t → Memory.wf t.dm = true

/-- While every word the engine may execute has a descriptor, a step answers a next state of the same kind:
no run of a well-formed program faults, with any policies (spec/60_exceptions.md section 1; decision
D17). -/
def Obligations.WellFormedProgramsNeverFault : Prop :=
  ∀ s : State, WordsDefined s → ∃ t, step s = .next t ∧ WordsDefined t

/-- With the flush policy on, every step keeps the shape of the pipeline: consecutive addresses in
consecutive stages, each unflushed word the program's at its address, a flushed slot the word 0
(spec/40_pipeline_engine.md section 6; decisions D13, D23). -/
def Obligations.StepKeepsPipelineShape : Prop :=
  ∀ s t : State, s.flushEn = true → PipelineShape s → step s = .next t → PipelineShape t

/-- After any clock, from any state, Writeback holds what `x` holds, so its forwarding path never changes an
operand; and a memory select comes only with a register write (spec/40_pipeline_engine.md section 6,
spec/95_test_vectors.md V8). -/
def Obligations.WritebackMirrorsAfterEveryClock : Prop :=
  ∀ s t : State, step s = .next t →
    WritebackMirrors t ∧ (t.m.wsel = .mem → t.m.rwe = true) ∧
    ∀ i, forward t i (readReg t.x i) =
      if t.fwdEn = true ∧ t.m.rwe = true ∧ t.m.wsel = .alu ∧ t.m.rd = i then t.m.res
      else readReg t.x i

/-! ### Hazards -/

/-- With forwarding on and no load in MemoryAccess, a register operand is the newest value: the cell with
the pending write done (spec/70_reset_and_hazards.md section 3; decision D10). -/
def Obligations.ForwardedOperandIsTheNewestValue : Prop :=
  ∀ (s : State) (i : RegIx), s.fwdEn = true → WritebackMirrors s →
    ¬ (s.m.rwe = true ∧ s.m.wsel = .mem) → regOperand s i = readReg (settledRegs s) i

/-- Stale reads: with forwarding off an operand is the register file's cell, without the pending write; and
behind a load in MemoryAccess it is the pre-load cell whatever the forwarding policy
(spec/70_reset_and_hazards.md section 4; decisions D9, D10). -/
def Obligations.StaleReadsWithoutTheirPolicy : Prop :=
  ∀ (s : State) (i : RegIx),
    (s.fwdEn = false → regOperand s i = readReg s.x i) ∧
    (s.m.wsel = .mem → WritebackMirrors s → regOperand s i = readReg s.x i)

/-- Sequential equivalence, one clock: with all policies on, a clock in which a program word executes is
that instruction's sequential view on the architectural state, and every other clock leaves the
architectural state as it is (spec/70_reset_and_hazards.md section 3; what a pipeline state shows is log
entry 16). -/
def Obligations.ClockIsSequentialOrStutters : Prop :=
  ∀ s t : State, AllPolicies s → PipelineShape s → WritebackMirrors s →
    (s.m.wsel = .mem → s.m.rwe = true) → step s = .next t →
    (executeHoldsProgramWord s = true ∧ ¬ Stalled s →
      seqStep s.program (architectural s) = .ok (architectural t)) ∧
    (¬ (executeHoldsProgramWord s = true ∧ ¬ Stalled s) → architectural t = architectural s)

/-- Sequential equivalence, whole runs: every well-formed program runs for every number of clocks, and the
architectural state is the sequential machine's after exactly as many instructions as clocks had a program
word execute, `executedWithin` (spec/70_reset_and_hazards.md section 3; what a pipeline state shows,
`architectural`, and which clocks execute a program word are the model's definitions, log entry 16). -/
def Obligations.RunsAreSequential : Prop :=
  ∀ p : List Word, programWf p = true → ∀ k : Nat, ∃ s : State,
    Sys2Proof.core.run k (State.resetWith p true true true) = Host.Outcome.next s ∧
    executedWithin k (State.resetWith p true true true) ≤ k ∧
    seqRun p (executedWithin k (State.resetWith p true true true)) SeqState.reset =
      .ok (architectural s)

/-- The pipeline never starves: within three clocks a program word executes (two bubbles and one stall at
the most; spec/70_reset_and_hazards.md section 5). -/
def Obligations.SomeInstructionExecutesWithinThreeClocks : Prop :=
  ∀ s : State, s.flushEn = true → WordsDefined s → PipelineShape s →
    ∃ (j : Nat) (u : State), j ≤ 3 ∧ Sys2Proof.core.run j s = Host.Outcome.next u ∧
      executeHoldsProgramWord u = true ∧ ¬ Stalled u

/-! ### What is never read -/

/-- The display-only fields are read by no rule: two states that differ only in them step alike but for
them (spec/10_state.md section 8; log entry 8). -/
def Obligations.DisplayFieldsAreNeverRead : Prop :=
  ∀ s t : State, eraseDisplay s = eraseDisplay t → eraseOutcome (step s) = eraseOutcome (step t)

/-- The carry flag is read by no instruction: changing it changes nothing of the next state but the carry
flag (spec/10_state.md section 4; decision D29). -/
def Obligations.CarryIsNeverRead : Prop :=
  ∀ (s t : State) (b : Bool), step s = .next t →
    ∃ u, step { s with m := { s.m with c := b } } = .next u ∧
      { u with m := { u.m with c := t.m.c } } = t

/-! ### The assembler -/

/-- Every word of an assembled program has a descriptor: a Program is well formed by construction, but for
its length (spec/30_encoding.md section 4). -/
def Obligations.AssembledWordsAreDefined : Prop :=
  ∀ (text : List Char) (p : List Word), assemble text = .ok p → ∀ w ∈ p, wordDefined w = true

/-- In a pass 1 without diagnostics a label is bound at the number of instruction lines before it, as a
12-bit program address (spec/30_encoding.md section 6). For 4096 lines or more that address is a free value,
and the statement holds for every value of it (log entry 17). -/
def Obligations.LabelIsBoundAtTheNextInstruction : Prop :=
  ∀ (before after : List (Nat × List Token)) (line : Nat) (t : Token),
    isLabelToken t = true → (pass1 (before ++ (line, [t]) :: after)).diagnostics = [] →
    findLabel (pass1 (before ++ (line, [t]) :: after)).table (labelName t) =
      some (labelAddress (instructionLines before)) ∧
    (instructionLines before < 4096 →
      (labelAddress (instructionLines before)).toNat = instructionLines before)

/-- The canonical rendering of an instruction assembles to its word (spec/30_encoding.md section 6;
decision D24, log entry 15). -/
def Obligations.RenderingAssemblesBack : Prop :=
  ∀ i : Instr, i.wf = true → assemble (render i) = .ok [encode i]
end

