-- ==== Sys2Proof/Laws/Alu.lean ====
section
/-! SUPPORT. The ALU's integer formulas as bit-vector operations. -/

namespace Sys2Proof.Machine

@[simp] theorem aluResult_add (a b : Byte) : aluResult .add a b = a + b := by
  apply BitVec.eq_of_toNat_eq
  simp [aluResult]

@[simp] theorem aluResult_sub (a b : Byte) : aluResult .sub a b = a - b := by
  apply BitVec.eq_of_toNat_eq
  have := a.isLt
  have := b.isLt
  simp only [aluResult, BitVec.toNat_ofInt, BitVec.toNat_sub]
  omega

@[simp] theorem aluResult_and (a b : Byte) : aluResult .and a b = a &&& b := rfl
@[simp] theorem aluResult_or (a b : Byte) : aluResult .or a b = a ||| b := rfl
@[simp] theorem aluResult_xor (a b : Byte) : aluResult .xor a b = a ^^^ b := rfl
@[simp] theorem aluResult_passA (a b : Byte) : aluResult .passA a b = a := rfl
@[simp] theorem aluResult_passB (a b : Byte) : aluResult .passB a b = b := rfl

@[simp] theorem aluResult_shl (a b : Byte) : aluResult .shl a b = a <<< b.toNat := by
  apply BitVec.eq_of_toNat_eq
  simp [aluResult, Nat.shiftLeft_eq]

@[simp] theorem aluResult_sar (a b : Byte) : aluResult .sar a b = a.sshiftRight b.toNat := by
  apply BitVec.eq_of_toInt_eq
  have h : a.toInt.fdiv (2 ^ b.toNat) = a.toInt >>> b.toNat := by
    rw [Int.shiftRight_eq_div_pow, Int.fdiv_eq_ediv_of_nonneg _ (by positivity)]
    norm_cast
  have hs : a.sshiftRight b.toNat = BitVec.ofInt 8 (a.toInt >>> b.toNat) := rfl
  simp only [aluResult, h, hs]

/-- The borrow is the unsigned comparison. -/
@[simp] theorem subBorrow_eq (a b : Byte) : subBorrow a b = decide (a < b) := by
  have : ((a.toNat : Int) - (b.toNat : Int) < 0) ↔ a < b := by
    rw [BitVec.lt_def]
    omega
  simp [subBorrow, this]

/-- The flag write enable is asserted exactly when the operation has flag outputs. -/
theorem flagWriteEnable_iff (op : AluOp) (a b : Byte) :
    flagWriteEnable op = (aluFlags op a b).isSome := by
  cases op <;> rfl

@[simp] theorem aluFlags_add (a b : Byte) :
    aluFlags .add a b = some ⟨decide (a + b = 0#8), addCarry a b⟩ := by
  simp [aluFlags, addFlags, zeroFlag]

@[simp] theorem aluFlags_sub (a b : Byte) :
    aluFlags .sub a b = some ⟨decide (a - b = 0#8), decide (a < b)⟩ := by
  simp [aluFlags, subFlags, zeroFlag]

@[simp] theorem aluFlags_and (a b : Byte) :
    aluFlags .and a b = some ⟨decide (a &&& b = 0#8), false⟩ := rfl
@[simp] theorem aluFlags_or (a b : Byte) :
    aluFlags .or a b = some ⟨decide (a ||| b = 0#8), false⟩ := rfl
@[simp] theorem aluFlags_xor (a b : Byte) :
    aluFlags .xor a b = some ⟨decide (a ^^^ b = 0#8), false⟩ := rfl
@[simp] theorem aluFlags_passA (a b : Byte) : aluFlags .passA a b = none := rfl
@[simp] theorem aluFlags_passB (a b : Byte) : aluFlags .passB a b = none := rfl
@[simp] theorem aluFlags_shl (a b : Byte) : aluFlags .shl a b = none := rfl
@[simp] theorem aluFlags_sar (a b : Byte) : aluFlags .sar a b = none := rfl

end Sys2Proof.Machine
end

