-- ==== Sys2Proof/Laws/Assembler.lean ====
section
/-! SUPPORT. What the assembler's pass 1 can do. -/

namespace Sys2Proof.Machine

/-- Below 4096 a label's program address is the number of instructions before it (R111). -/
@[simp] theorem labelAddress_toNat {n : Nat} (h : n < 4096) : (labelAddress n).toNat = n := by
  have h' : n < 2 ^ 12 := h
  rw [labelAddress, if_pos h', BitVec.toNat_ofNat, Nat.mod_eq_of_lt h']

/-- Whatever a line is, the counter advances by 1 exactly when the line holds a token that is no label. -/
theorem pass1Line_counter (p : Pass1) (line : Nat) (tokens : List Token) :
    (pass1Line p line tokens).counter = if tokens.all isLabelToken then p.counter else p.counter + 1 := by
  cases tokens with
  | nil => rfl
  | cons t followers =>
    simp only [pass1Line]
    split
    · split <;> rfl
    · rfl

/-- A line adds diagnostics and takes none away. -/
theorem pass1Line_diagnostics (p : Pass1) (line : Nat) (tokens : List Token) :
    ∃ more, (pass1Line p line tokens).diagnostics = p.diagnostics ++ more := by
  cases tokens with
  | nil => exact ⟨[], (List.append_nil _).symm⟩
  | cons t followers =>
    simp only [pass1Line]
    split
    · split <;> exact ⟨_, rfl⟩
    · exact ⟨_, rfl⟩

/-- A line adds table entries and takes none away. -/
theorem pass1Line_table (p : Pass1) (line : Nat) (tokens : List Token) :
    ∃ more, (pass1Line p line tokens).table = p.table ++ more := by
  cases tokens with
  | nil => exact ⟨[], (List.append_nil _).symm⟩
  | cons t followers =>
    simp only [pass1Line]
    split
    · split
      · exact ⟨[], (List.append_nil _).symm⟩
      · exact ⟨_, rfl⟩
    · exact ⟨[], (List.append_nil _).symm⟩

end Sys2Proof.Machine
end

