-- ==== Sys2Proof/Laws/Encoding.lean ====
section
/-! SUPPORT. The fields of a packed word, and which words decode. -/

namespace Sys2Proof

theorem toNat_pack (op : Opcode) (low : Nat) (h : low < 4096) :
    (pack op low).toNat = op.toNat * 4096 + low := by
  have := op.isLt
  simp only [pack, BitVec.toNat_ofNat]
  omega

/-- The opcode field is never touched by an operand field (R105). -/
theorem opcodeOf_pack (op : Opcode) (low : Nat) (h : low < 4096) : opcodeOf (pack op low) = op := by
  apply BitVec.eq_of_toNat_eq
  have := op.isLt
  simp only [opcodeOf, BitVec.extractLsb'_toNat, toNat_pack op low h, Nat.shiftRight_eq_div_pow]
  omega

@[simp] theorem opcodeOf_packN (op : Opcode) : opcodeOf (packN op) = op :=
  opcodeOf_pack op 0 (by omega)

@[simp] theorem opcodeOf_packRR (op : Opcode) (rd rs : RegIx) : opcodeOf (packRR op rd rs) = op :=
  opcodeOf_pack op _ (by have := rd.isLt; have := rs.isLt; omega)

@[simp] theorem opcodeOf_packRI (op : Opcode) (rd : RegIx) (imm : Byte) :
    opcodeOf (packRI op rd imm) = op :=
  opcodeOf_pack op _ (by have := rd.isLt; have := imm.isLt; omega)

@[simp] theorem opcodeOf_packA (op : Opcode) (a : Addr) : opcodeOf (packA op a) = op :=
  opcodeOf_pack op _ a.isLt

@[simp] theorem opcodeOf_packS (op : Opcode) (s : Int) : opcodeOf (packS op s) = op :=
  opcodeOf_pack op _ (by omega)

@[simp] theorem fieldRd_packRR (op : Opcode) (rd rs : RegIx) : fieldRd (packRR op rd rs) = rd := by
  apply BitVec.eq_of_toNat_eq
  have := op.isLt; have := rd.isLt; have := rs.isLt
  simp only [fieldRd, packRR, BitVec.extractLsb'_toNat, Nat.shiftRight_eq_div_pow,
    toNat_pack op (rd.toNat * 256 + rs.toNat * 16) (by omega)]
  omega

@[simp] theorem fieldRs_packRR (op : Opcode) (rd rs : RegIx) : fieldRs (packRR op rd rs) = rs := by
  apply BitVec.eq_of_toNat_eq
  have := op.isLt; have := rd.isLt; have := rs.isLt
  simp only [fieldRs, packRR, BitVec.extractLsb'_toNat, Nat.shiftRight_eq_div_pow,
    toNat_pack op (rd.toNat * 256 + rs.toNat * 16) (by omega)]
  omega

@[simp] theorem fieldRd_packRI (op : Opcode) (rd : RegIx) (imm : Byte) :
    fieldRd (packRI op rd imm) = rd := by
  apply BitVec.eq_of_toNat_eq
  have := op.isLt; have := rd.isLt; have := imm.isLt
  simp only [fieldRd, packRI, BitVec.extractLsb'_toNat, Nat.shiftRight_eq_div_pow,
    toNat_pack op (rd.toNat * 256 + imm.toNat) (by omega)]
  omega

@[simp] theorem fieldImm_packRI (op : Opcode) (rd : RegIx) (imm : Byte) :
    fieldImm (packRI op rd imm) = imm := by
  apply BitVec.eq_of_toNat_eq
  have := op.isLt; have := rd.isLt; have := imm.isLt
  simp only [fieldImm, packRI, BitVec.extractLsb'_toNat, Nat.shiftRight_eq_div_pow,
    toNat_pack op (rd.toNat * 256 + imm.toNat) (by omega)]
  omega

@[simp] theorem fieldAddr_packA (op : Opcode) (a : Addr) : fieldAddr (packA op a) = a := by
  apply BitVec.eq_of_toNat_eq
  have := op.isLt; have := a.isLt
  simp only [fieldAddr, packA, BitVec.extractLsb'_toNat, Nat.shiftRight_eq_div_pow,
    toNat_pack op a.toNat a.isLt]
  omega

@[simp] theorem fieldAddr_packS (op : Opcode) (s : Int) :
    fieldAddr (packS op s) = BitVec.ofInt 12 s := by
  apply BitVec.eq_of_toNat_eq
  have := op.isLt
  simp only [fieldAddr, packS, BitVec.extractLsb'_toNat, Nat.shiftRight_eq_div_pow, BitVec.toNat_ofInt,
    toNat_pack op (s % 4096).toNat (by omega)]
  omega

/-- `sext_12` of the stored field gives the operand back when it is in range (R92). -/
theorem fieldSigned_packS (op : Opcode) (s : Int) (h : signedAddressOk s = true) :
    fieldSigned (packS op s) = s := by
  simp only [signedAddressOk, Bool.and_eq_true, decide_eq_true_eq] at h
  simp only [fieldSigned, fieldAddr_packS, BitVec.toInt_ofInt]
  exact Int.bmod_eq_of_le (by norm_num; omega) (by norm_num; omega)

/-- The opcode below 27 is what `wordDefined` says (R102, R106). -/
theorem wordDefined_iff (w : Word) : wordDefined w = true ↔ (opcodeOf w).toNat < 27 := by
  have := w.isLt
  simp only [wordDefined, decide_eq_true_eq, opcodeOf, BitVec.extractLsb'_toNat,
    Nat.shiftRight_eq_div_pow, Config.numOpcodes]
  norm_num
  omega

/-- What a decoding says: it succeeds exactly on the words with a descriptor, and its failure names the
opcode. -/
theorem decode_cases (w : Word) :
    ((opcodeOf w).toNat < 27 ∧ ∃ i, decode w = .ok i ∧ i.opcode = (opcodeOf w).toNat) ∨
      (27 ≤ (opcodeOf w).toNat ∧ decode w = .error (.noDescriptor (opcodeOf w))) := by
  unfold decode
  split
  all_goals first
    | (left; rename_i h; rw [h]; exact ⟨by omega, _, rfl, rfl⟩)
    | (right
       refine ⟨?_, rfl⟩
       by_contra hlt
       have hlt : (opcodeOf w).toNat < 27 := by omega
       generalize (opcodeOf w).toNat = n at *
       interval_cases n <;> simp_all)

/-- A decoded instruction's opcode is the word's (R99). -/
theorem decode_opcode {w : Word} {i : Instr} (h : decode w = .ok i) :
    i.opcode = (opcodeOf w).toNat ∧ (opcodeOf w).toNat < 27 := by
  rcases decode_cases w with ⟨hlt, j, hj, hop⟩ | ⟨_, herr⟩
  · rw [hj] at h
    cases h
    exact ⟨hop, hlt⟩
  · rw [herr] at h
    cases h

/-- A decoded instruction's operands are in range. -/
theorem decode_wf {w : Word} {i : Instr} (h : decode w = .ok i) : i.wf = true := by
  have hs : signedAddressOk (fieldSigned w) = true := by
    have h1 := (fieldAddr w).le_toInt
    have h2 := (fieldAddr w).toInt_lt
    norm_num at h1 h2
    have h3 : -2048 ≤ fieldSigned w ∧ fieldSigned w ≤ 2047 := ⟨h1, by unfold fieldSigned; omega⟩
    simp [signedAddressOk, h3]
  unfold decode at h
  split at h <;> first | (cases h; done) | (cases h; first | rfl | exact hs)

end Sys2Proof
end

