-- ==== Sys2Proof/Laws/PerInstr.lean ====
section
/-! SUPPORT. Facts about every instruction as written, one lemma per constructor. -/

namespace Sys2Proof.Laws

/-- The opcode field of an instruction's word is the instruction's number, whatever its operands (R91,
R105). -/
def OpcodeField.Statement (i : Instr) : Prop := (opcodeOf (encode i)).toNat = i.opcode

theorem OpcodeField.nop : OpcodeField.Statement (.nop) := by
  simp [OpcodeField.Statement, encode, Instr.opcode]

theorem OpcodeField.movRR (rd rs : RegIx) : OpcodeField.Statement (.movRR rd rs) := by
  simp [OpcodeField.Statement, encode, Instr.opcode]

theorem OpcodeField.movRI (rd : RegIx) (imm : Byte) : OpcodeField.Statement (.movRI rd imm) := by
  simp [OpcodeField.Statement, encode, Instr.opcode]

theorem OpcodeField.addRR (rd rs : RegIx) : OpcodeField.Statement (.addRR rd rs) := by
  simp [OpcodeField.Statement, encode, Instr.opcode]

theorem OpcodeField.addRI (rd : RegIx) (imm : Byte) : OpcodeField.Statement (.addRI rd imm) := by
  simp [OpcodeField.Statement, encode, Instr.opcode]

theorem OpcodeField.subRR (rd rs : RegIx) : OpcodeField.Statement (.subRR rd rs) := by
  simp [OpcodeField.Statement, encode, Instr.opcode]

theorem OpcodeField.subRI (rd : RegIx) (imm : Byte) : OpcodeField.Statement (.subRI rd imm) := by
  simp [OpcodeField.Statement, encode, Instr.opcode]

theorem OpcodeField.andRR (rd rs : RegIx) : OpcodeField.Statement (.andRR rd rs) := by
  simp [OpcodeField.Statement, encode, Instr.opcode]

theorem OpcodeField.andRI (rd : RegIx) (imm : Byte) : OpcodeField.Statement (.andRI rd imm) := by
  simp [OpcodeField.Statement, encode, Instr.opcode]

theorem OpcodeField.orRR (rd rs : RegIx) : OpcodeField.Statement (.orRR rd rs) := by
  simp [OpcodeField.Statement, encode, Instr.opcode]

theorem OpcodeField.orRI (rd : RegIx) (imm : Byte) : OpcodeField.Statement (.orRI rd imm) := by
  simp [OpcodeField.Statement, encode, Instr.opcode]

theorem OpcodeField.xorRR (rd rs : RegIx) : OpcodeField.Statement (.xorRR rd rs) := by
  simp [OpcodeField.Statement, encode, Instr.opcode]

theorem OpcodeField.xorRI (rd : RegIx) (imm : Byte) : OpcodeField.Statement (.xorRI rd imm) := by
  simp [OpcodeField.Statement, encode, Instr.opcode]

theorem OpcodeField.shlRR (rd rs : RegIx) : OpcodeField.Statement (.shlRR rd rs) := by
  simp [OpcodeField.Statement, encode, Instr.opcode]

theorem OpcodeField.shlRI (rd : RegIx) (imm : Byte) : OpcodeField.Statement (.shlRI rd imm) := by
  simp [OpcodeField.Statement, encode, Instr.opcode]

theorem OpcodeField.sarRR (rd rs : RegIx) : OpcodeField.Statement (.sarRR rd rs) := by
  simp [OpcodeField.Statement, encode, Instr.opcode]

theorem OpcodeField.sarRI (rd : RegIx) (imm : Byte) : OpcodeField.Statement (.sarRI rd imm) := by
  simp [OpcodeField.Statement, encode, Instr.opcode]

theorem OpcodeField.ldRR (rd rs : RegIx) : OpcodeField.Statement (.ldRR rd rs) := by
  simp [OpcodeField.Statement, encode, Instr.opcode]

theorem OpcodeField.ldRI (rd : RegIx) (imm : Byte) : OpcodeField.Statement (.ldRI rd imm) := by
  simp [OpcodeField.Statement, encode, Instr.opcode]

theorem OpcodeField.stRR (rd rs : RegIx) : OpcodeField.Statement (.stRR rd rs) := by
  simp [OpcodeField.Statement, encode, Instr.opcode]

theorem OpcodeField.stRI (rd : RegIx) (imm : Byte) : OpcodeField.Statement (.stRI rd imm) := by
  simp [OpcodeField.Statement, encode, Instr.opcode]

theorem OpcodeField.jmp (a : Addr) : OpcodeField.Statement (.jmp a) := by
  simp [OpcodeField.Statement, encode, Instr.opcode]

theorem OpcodeField.jz (a : Addr) : OpcodeField.Statement (.jz a) := by
  simp [OpcodeField.Statement, encode, Instr.opcode]

theorem OpcodeField.jnz (a : Addr) : OpcodeField.Statement (.jnz a) := by
  simp [OpcodeField.Statement, encode, Instr.opcode]

theorem OpcodeField.br (off : Int) : OpcodeField.Statement (.br off) := by
  simp [OpcodeField.Statement, encode, Instr.opcode]

theorem OpcodeField.bz (off : Int) : OpcodeField.Statement (.bz off) := by
  simp [OpcodeField.Statement, encode, Instr.opcode]

theorem OpcodeField.bnz (off : Int) : OpcodeField.Statement (.bnz off) := by
  simp [OpcodeField.Statement, encode, Instr.opcode]

end Sys2Proof.Laws
end

