-- ==== Sys2Proof/Laws/State.lean ====
section
/-! SUPPORT. One lemma per field per update of the state, true by `rfl`, so that no later proof unfolds
a record update. -/

namespace Sys2Proof.Machine

/-! ### `latch` -/

@[simp] theorem latch_x (s : State) (c : Comb) : (latch s c).x = commitReg s c := rfl
@[simp] theorem latch_dm (s : State) (c : Comb) : (latch s c).dm = commitMem s c := rfl
@[simp] theorem latch_f (s : State) (c : Comb) : (latch s c).f = latchF s c := rfl
@[simp] theorem latch_d (s : State) (c : Comb) : (latch s c).d = latchD s c := rfl
@[simp] theorem latch_e (s : State) (c : Comb) : (latch s c).e = latchE s c := rfl
@[simp] theorem latch_m (s : State) (c : Comb) : (latch s c).m = latchM s c := rfl
@[simp] theorem latch_w (s : State) (c : Comb) : (latch s c).w = latchW s c := rfl
@[simp] theorem latch_cycle (s : State) (c : Comb) : (latch s c).cycle = s.cycle + 1 := rfl
@[simp] theorem latch_program (s : State) (c : Comb) : (latch s c).program = s.program := rfl
@[simp] theorem latch_fwdEn (s : State) (c : Comb) : (latch s c).fwdEn = s.fwdEn := rfl
@[simp] theorem latch_flushEn (s : State) (c : Comb) : (latch s c).flushEn = s.flushEn := rfl
@[simp] theorem latch_stallEn (s : State) (c : Comb) : (latch s c).stallEn = s.stallEn := rfl

/-! ### `setPolicies` -/

@[simp] theorem setPolicies_x (s : State) (a b c : Bool) : (setPolicies s a b c).x = s.x := rfl
@[simp] theorem setPolicies_dm (s : State) (a b c : Bool) : (setPolicies s a b c).dm = s.dm := rfl
@[simp] theorem setPolicies_f (s : State) (a b c : Bool) : (setPolicies s a b c).f = s.f := rfl
@[simp] theorem setPolicies_d (s : State) (a b c : Bool) : (setPolicies s a b c).d = s.d := rfl
@[simp] theorem setPolicies_e (s : State) (a b c : Bool) : (setPolicies s a b c).e = s.e := rfl
@[simp] theorem setPolicies_m (s : State) (a b c : Bool) : (setPolicies s a b c).m = s.m := rfl
@[simp] theorem setPolicies_w (s : State) (a b c : Bool) : (setPolicies s a b c).w = s.w := rfl
@[simp] theorem setPolicies_cycle (s : State) (a b c : Bool) : (setPolicies s a b c).cycle = s.cycle := rfl
@[simp] theorem setPolicies_program (s : State) (a b c : Bool) : (setPolicies s a b c).program = s.program := rfl
@[simp] theorem setPolicies_fwdEn (s : State) (a b c : Bool) : (setPolicies s a b c).fwdEn = a := rfl
@[simp] theorem setPolicies_flushEn (s : State) (a b c : Bool) : (setPolicies s a b c).flushEn = b := rfl
@[simp] theorem setPolicies_stallEn (s : State) (a b c : Bool) : (setPolicies s a b c).stallEn = c := rfl

/-! ### `placeInExecute` -/

@[simp] theorem placeInExecute_x (v : Word) (s : State) :
    (placeInExecute v s).x = s.x := rfl
@[simp] theorem placeInExecute_dm (v : Word) (s : State) :
    (placeInExecute v s).dm = s.dm := rfl
@[simp] theorem placeInExecute_f (v : Word) (s : State) :
    (placeInExecute v s).f = s.f := rfl
@[simp] theorem placeInExecute_d (v : Word) (s : State) :
    (placeInExecute v s).d = s.d := rfl
@[simp] theorem placeInExecute_e (v : Word) (s : State) :
    (placeInExecute v s).e = ⟨v, s.e.pc, false⟩ := rfl
@[simp] theorem placeInExecute_m (v : Word) (s : State) :
    (placeInExecute v s).m = (if stallCondition s = true then { s.m with rwe := false } else s.m) := rfl
@[simp] theorem placeInExecute_w (v : Word) (s : State) :
    (placeInExecute v s).w = s.w := rfl
@[simp] theorem placeInExecute_cycle (v : Word) (s : State) :
    (placeInExecute v s).cycle = s.cycle := rfl
@[simp] theorem placeInExecute_program (v : Word) (s : State) :
    (placeInExecute v s).program = s.program := rfl
@[simp] theorem placeInExecute_fwdEn (v : Word) (s : State) :
    (placeInExecute v s).fwdEn = s.fwdEn := rfl
@[simp] theorem placeInExecute_flushEn (v : Word) (s : State) :
    (placeInExecute v s).flushEn = s.flushEn := rfl
@[simp] theorem placeInExecute_stallEn (v : Word) (s : State) :
    (placeInExecute v s).stallEn = s.stallEn := rfl

/-! ### `resetWith` -/

@[simp] theorem resetWith_x (p : List Word) (a b c : Bool) : (State.resetWith p a b c).x = Vector.replicate 16 0#8 := rfl
@[simp] theorem resetWith_dm (p : List Word) (a b c : Bool) : (State.resetWith p a b c).dm = [] := rfl
@[simp] theorem resetWith_f (p : List Word) (a b c : Bool) : (State.resetWith p a b c).f = ⟨0#12⟩ := rfl
@[simp] theorem resetWith_d (p : List Word) (a b c : Bool) : (State.resetWith p a b c).d = Slot.reset := rfl
@[simp] theorem resetWith_e (p : List Word) (a b c : Bool) : (State.resetWith p a b c).e = Slot.reset := rfl
@[simp] theorem resetWith_m (p : List Word) (a b c : Bool) : (State.resetWith p a b c).m = MemRegs.reset := rfl
@[simp] theorem resetWith_w (p : List Word) (a b c : Bool) : (State.resetWith p a b c).w = WbRegs.reset := rfl
@[simp] theorem resetWith_cycle (p : List Word) (a b c : Bool) : (State.resetWith p a b c).cycle = 0 := rfl
@[simp] theorem resetWith_program (p : List Word) (a b c : Bool) : (State.resetWith p a b c).program = p := rfl
@[simp] theorem resetWith_fwdEn (p : List Word) (a b c : Bool) : (State.resetWith p a b c).fwdEn = a := rfl
@[simp] theorem resetWith_flushEn (p : List Word) (a b c : Bool) : (State.resetWith p a b c).flushEn = b := rfl
@[simp] theorem resetWith_stallEn (p : List Word) (a b c : Bool) : (State.resetWith p a b c).stallEn = c := rfl

/-! ### `evaluate` -/

@[simp] theorem evaluate_fIr (k : Ctl) (o : Operands) (s : State) :
    (evaluate k o s).fIr = fetch s.program s.f.pc := rfl
@[simp] theorem evaluate_eOpc (k : Ctl) (o : Operands) (s : State) :
    (evaluate k o s).eOpc = opcodeOf s.e.ir := rfl
@[simp] theorem evaluate_fields (k : Ctl) (o : Operands) (s : State) :
    (evaluate k o s).fields = o := rfl
@[simp] theorem evaluate_dOpc (k : Ctl) (o : Operands) (s : State) :
    (evaluate k o s).dOpc = opcodeOf s.d.ir := rfl
@[simp] theorem evaluate_dFields (k : Ctl) (o : Operands) (s : State) :
    (evaluate k o s).dFields = operandsOfWord s.d.ir := rfl
@[simp] theorem evaluate_ctl0 (k : Ctl) (o : Operands) (s : State) :
    (evaluate k o s).ctl0 = controlTable[(opcodeOf s.e.ir).toNat]? := rfl
@[simp] theorem evaluate_aRaw (k : Ctl) (o : Operands) (s : State) :
    (evaluate k o s).aRaw = readReg s.x o.ra := rfl
@[simp] theorem evaluate_bRaw (k : Ctl) (o : Operands) (s : State) :
    (evaluate k o s).bRaw = readReg s.x o.rb := rfl
@[simp] theorem evaluate_aluZC (k : Ctl) (o : Operands) (s : State) :
    (evaluate k o s).aluZC = aluFlags (effectiveCtl s k).aluOp (operandA s o) (operandB s (effectiveCtl s k).bSel o) := rfl
@[simp] theorem evaluate_stall (k : Ctl) (o : Operands) (s : State) :
    (evaluate k o s).stall = stallCondition s := rfl
@[simp] theorem evaluate_ctl (k : Ctl) (o : Operands) (s : State) :
    (evaluate k o s).ctl = effectiveCtl s k := rfl
@[simp] theorem evaluate_eA (k : Ctl) (o : Operands) (s : State) :
    (evaluate k o s).eA = operandA s o := rfl
@[simp] theorem evaluate_eB (k : Ctl) (o : Operands) (s : State) :
    (evaluate k o s).eB = operandB s (effectiveCtl s k).bSel o := rfl
@[simp] theorem evaluate_eRes (k : Ctl) (o : Operands) (s : State) :
    (evaluate k o s).eRes = aluResult (effectiveCtl s k).aluOp (operandA s o) (operandB s (effectiveCtl s k).bSel o) := rfl
@[simp] theorem evaluate_eFwe (k : Ctl) (o : Operands) (s : State) :
    (evaluate k o s).eFwe = flagWriteEnable (effectiveCtl s k).aluOp := rfl
@[simp] theorem evaluate_eFlags (k : Ctl) (o : Operands) (s : State) :
    (evaluate k o s).eFlags = flagsOut s (effectiveCtl s k).aluOp (operandA s o) (operandB s (effectiveCtl s k).bSel o) := rfl
@[simp] theorem evaluate_eTgt (k : Ctl) (o : Operands) (s : State) :
    (evaluate k o s).eTgt = transferTarget s (effectiveCtl s k) o := rfl
@[simp] theorem evaluate_eTaken (k : Ctl) (o : Operands) (s : State) :
    (evaluate k o s).eTaken = taken s (effectiveCtl s k) := rfl
@[simp] theorem evaluate_nextPc (k : Ctl) (o : Operands) (s : State) :
    (evaluate k o s).nextPc = nextPc s (effectiveCtl s k) o := rfl
@[simp] theorem evaluate_fEn (k : Ctl) (o : Operands) (s : State) :
    (evaluate k o s).fEn = (!stallCondition s) := rfl
@[simp] theorem evaluate_dEn (k : Ctl) (o : Operands) (s : State) :
    (evaluate k o s).dEn = (!stallCondition s) := rfl
@[simp] theorem evaluate_eEn (k : Ctl) (o : Operands) (s : State) :
    (evaluate k o s).eEn = (!stallCondition s) := rfl
@[simp] theorem evaluate_mEn (k : Ctl) (o : Operands) (s : State) :
    (evaluate k o s).mEn = true := rfl
@[simp] theorem evaluate_wEn (k : Ctl) (o : Operands) (s : State) :
    (evaluate k o s).wEn = true := rfl
@[simp] theorem evaluate_fFlush (k : Ctl) (o : Operands) (s : State) :
    (evaluate k o s).fFlush = (taken s (effectiveCtl s k) && s.flushEn) := rfl
@[simp] theorem evaluate_dFlush (k : Ctl) (o : Operands) (s : State) :
    (evaluate k o s).dFlush = (taken s (effectiveCtl s k) && s.flushEn) := rfl
@[simp] theorem evaluate_mRdata (k : Ctl) (o : Operands) (s : State) :
    (evaluate k o s).mRdata = readCell s.dm s.m.res := rfl
@[simp] theorem evaluate_mWval (k : Ctl) (o : Operands) (s : State) :
    (evaluate k o s).mWval = writeBackValue s := rfl

end Sys2Proof.Machine
end

