-- ==== Sys2Proof/Laws/Storage.lean ====
section
/-! SUPPORT. What the register file, the data memory and the instruction store can do: read after
write, and that every memory operation keeps the canonical form. -/

namespace Sys2Proof.Machine

/-! ### Register file -/

/-- Reading after a write: the written cell holds the value, every other cell is as before. -/
theorem readReg_writeReg (x : RegFile) (i j : RegIx) (v : Byte) :
    readReg (writeReg x i v) j = if i = j then v else readReg x j := by
  unfold readReg writeReg
  rw [Vector.getElem_set]
  simp only [BitVec.toNat_inj]

@[simp] theorem readReg_writeReg_same (x : RegFile) (i : RegIx) (v : Byte) :
    readReg (writeReg x i v) i = v := by
  simp [readReg_writeReg]

@[simp] theorem readReg_replicate (v : Byte) (i : RegIx) : readReg (Vector.replicate 16 v) i = v := by
  simp [readReg]

/-- Two register files that read alike are equal. -/
theorem regFile_ext {x y : RegFile} (h : ∀ i, readReg x i = readReg y i) : x = y := by
  apply Vector.ext
  intro i hi
  have := h (BitVec.ofNat 4 i)
  simpa [readReg, Nat.mod_eq_of_lt hi] using this

/-! ### Data memory -/

theorem lookupCell_filter_ne (m : Memory) (k j : Nat) :
    lookupCell (m.filter (fun cell => cell.1 != k)) j =
      if j = k then Config.unlistedByte else lookupCell m j := by
  induction m with
  | nil => simp [lookupCell]
  | cons p m ih =>
    obtain ⟨a, b⟩ := p
    by_cases hak : a = k
    · subst hak
      simp only [List.filter_cons, bne_self_eq_false, Bool.false_eq_true, if_false, ih, lookupCell]
      split <;> simp_all [eq_comm]
    · have hne : (a != k) = true := by simpa using hak
      simp only [List.filter_cons, hne, if_true, lookupCell, ih]
      by_cases haj : a = j
      · subst haj
        simp [hak]
      · simp [haj]

theorem lookupCell_insertCell (m : Memory) (k j : Nat) (v : Byte) (h : ∀ p ∈ m, p.1 ≠ k) :
    lookupCell (insertCell k v m) j = if j = k then v else lookupCell m j := by
  induction m with
  | nil => simp [insertCell, lookupCell, eq_comm]
  | cons p m ih =>
    obtain ⟨a, b⟩ := p
    have hak : a ≠ k := h (a, b) (by simp)
    have ih := ih (fun q hq => h q (by simp [hq]))
    unfold insertCell
    split
    · simp only [lookupCell]
      by_cases hkj : k = j
      · simp [hkj]
      · simp [hkj, Ne.symm hkj]
    · simp only [lookupCell, ih]
      by_cases haj : a = j
      · subst haj
        simp [hak]
      · simp [haj]

/-- Reading after a store: the stored cell holds the value, every other cell is as before. It holds for
every list, canonical or not. -/
theorem readCell_writeCell (m : Memory) (a b v : Byte) :
    readCell (writeCell m a v) b = if b = a then v else readCell m b := by
  unfold readCell writeCell
  have hne : ∀ p ∈ m.filter (fun cell => cell.1 != a.toNat), p.1 ≠ a.toNat := by
    intro p hp
    simpa using (List.mem_filter.mp hp).2
  by_cases hba : b = a
  · subst hba
    dsimp only
    split
    · simp_all [lookupCell_filter_ne]
    · simp [lookupCell_insertCell _ _ _ _ hne]
  · have hn : b.toNat ≠ a.toNat := fun h => hba (BitVec.eq_of_toNat_eq h)
    dsimp only
    split
    · simp [lookupCell_filter_ne, hn]
    · simp [lookupCell_insertCell _ _ _ _ hne, lookupCell_filter_ne, hn]

theorem mem_insertCell (k : Nat) (v : Byte) (m : Memory) (p : Host.Cell) :
    p ∈ insertCell k v m ↔ p = (k, v) ∨ p ∈ m := by
  induction m with
  | nil => simp [insertCell]
  | cons q m ih =>
    unfold insertCell
    split
    · simp
    · simp only [List.mem_cons, ih]
      tauto

theorem insertCell_pairwise (k : Nat) (v : Byte) (m : Memory)
    (hs : m.Pairwise (fun p q => p.1 < q.1)) (h : ∀ p ∈ m, p.1 ≠ k) :
    (insertCell k v m).Pairwise (fun p q => p.1 < q.1) := by
  induction m with
  | nil => simp [insertCell]
  | cons p m ih =>
    rw [List.pairwise_cons] at hs
    have hk := h p (by simp)
    unfold insertCell
    split
    · rename_i hlt
      rw [List.pairwise_cons]
      refine ⟨?_, List.pairwise_cons.mpr hs⟩
      intro q hq
      rcases List.mem_cons.mp hq with rfl | hq
      · exact hlt
      · exact lt_trans hlt (hs.1 q hq)
    · rename_i hlt
      rw [List.pairwise_cons]
      refine ⟨?_, ih hs.2 (fun q hq => h q (by simp [hq]))⟩
      intro q hq
      rcases (mem_insertCell k v m q).mp hq with rfl | hq
      · show p.1 < k
        have : ¬ k < p.1 := hlt
        omega
      · exact hs.1 q hq

/-- The canonical form, as a proposition. -/
theorem memory_wf_iff (m : Memory) :
    Memory.wf m = true ↔ m.Pairwise (fun p q => p.1 < q.1) ∧
      ∀ p ∈ m, p.1 < Config.dataCells ∧ p.2 ≠ Config.unlistedByte := by
  simp [Memory.wf]

/-- A store keeps the canonical form. -/
theorem writeCell_wf (m : Memory) (a v : Byte) (h : Memory.wf m = true) :
    Memory.wf (writeCell m a v) = true := by
  rw [memory_wf_iff] at h ⊢
  obtain ⟨hs, hp⟩ := h
  have hs' := hs.filter (fun cell : Host.Cell => cell.1 != a.toNat)
  have hne : ∀ p ∈ m.filter (fun cell => cell.1 != a.toNat), p.1 ≠ a.toNat := by
    intro p hp'
    simpa using (List.mem_filter.mp hp').2
  have hmem : ∀ p ∈ m.filter (fun cell => cell.1 != a.toNat),
      p.1 < Config.dataCells ∧ p.2 ≠ Config.unlistedByte :=
    fun p hp' => hp p (List.mem_filter.mp hp').1
  unfold writeCell
  dsimp only
  split
  · exact ⟨hs', hmem⟩
  · rename_i hv
    refine ⟨insertCell_pairwise _ _ _ hs' hne, ?_⟩
    intro p hp'
    rcases (mem_insertCell _ _ _ p).mp hp' with rfl | hp'
    · exact ⟨a.isLt, hv⟩
    · exact hmem p hp'

/-- Memory with nothing listed is canonical: the memory of reset is. -/
theorem empty_wf : Memory.wf [] = true := by decide

/-! ### Instruction store -/

/-- Inside the program a fetch reads its word. -/
theorem fetch_inside (p : List Word) (a : Addr) (h : a.toNat < p.length) : fetch p a = p[a.toNat] := by
  simp [fetch, h]

/-- At or beyond its end a fetch reads 0. -/
theorem fetch_outside (p : List Word) (a : Addr) (h : p.length ≤ a.toNat) : fetch p a = 0#18 := by
  simp [fetch, List.getD_eq_getElem?_getD, h]

/-- A fetch reads a word of the program or 0. -/
theorem fetch_mem_or_zero (p : List Word) (a : Addr) : fetch p a ∈ p ∨ fetch p a = 0#18 := by
  by_cases h : a.toNat < p.length
  · left
    rw [fetch_inside p a h]
    exact List.getElem_mem h
  · right
    exact fetch_outside p a (by omega)

end Sys2Proof.Machine
end

