-- ==== Sys2Proof/Laws/Pipeline.lean ====
section
/-! SUPPORT. What one clock can do: the shared operations' lemmas, which later proofs cite instead of
unfolding `clockWith`. -/

namespace Sys2Proof.Machine

theorem stallCondition_iff (s : State) : stallCondition s = true ↔ Stalled s := by
  simp [stallCondition, Stalled, and_assoc]

theorem stallCondition_false_iff (s : State) : stallCondition s = false ↔ ¬ Stalled s := by
  rw [← stallCondition_iff, Bool.not_eq_true]

/-- The effective control set is the looked-up one when the word executes, and inert otherwise (R143). -/
theorem effectiveCtl_executes {s : State} (h : ExecutesNow s) (k : Ctl) : effectiveCtl s k = k := by
  have hs := (stallCondition_false_iff s).mpr h.2
  simp [effectiveCtl, h.1, hs]

theorem effectiveCtl_inert {s : State} (h : ¬ ExecutesNow s) (k : Ctl) : effectiveCtl s k = .inert := by
  unfold effectiveCtl
  by_cases hf : s.e.fl = true
  · simp [hf]
  · have hst : Stalled s := by
      by_contra hn
      exact h ⟨by simpa using hf, hn⟩
    simp [(stallCondition_iff s).mpr hst]

/-- Forwarding, once: the newest result of the two stages ahead, else the register file (R149). -/
theorem forward_cases (s : State) (i : RegIx) (raw : Byte) :
    (s.fwdEn = true ∧ s.m.rwe = true ∧ s.m.wsel = .alu ∧ s.m.rd = i ∧ forward s i raw = s.m.res) ∨
    (¬ (s.fwdEn = true ∧ s.m.rwe = true ∧ s.m.wsel = .alu ∧ s.m.rd = i) ∧
      s.fwdEn = true ∧ s.w.rwe = true ∧ s.w.rd = i ∧ forward s i raw = s.w.val) ∨
    (¬ (s.fwdEn = true ∧ s.m.rwe = true ∧ s.m.wsel = .alu ∧ s.m.rd = i) ∧
      ¬ (s.fwdEn = true ∧ s.w.rwe = true ∧ s.w.rd = i) ∧ forward s i raw = raw) := by
  unfold forward
  split
  · left; tauto
  · split
    · right; left; tauto
    · right; right; tauto

/-! ### Every clock -/

theorem readReg_commitReg (s : State) (c : Comb) (i : RegIx) :
    readReg (commitReg s c) i = if s.m.rwe = true ∧ s.m.rd = i then c.mWval else readReg s.x i := by
  unfold commitReg
  split <;> simp_all [readReg_writeReg]

theorem clockWith_older (k : Ctl) (o : Operands) (s : State) : OlderRetires s (clockWith k o s) := by
  refine ⟨fun i => ?_, ?_⟩
  · simp [clockWith, readReg_commitReg]
  · simp [clockWith, latchW]

theorem clockWith_inputs (k : Ctl) (o : Operands) (s : State) : HostInputsKept s (clockWith k o s) := by
  simp [clockWith, HostInputsKept]

/-- What `M` receives in any clock (R136). -/
theorem clockWith_m (k : Ctl) (o : Operands) (s : State) :
    (clockWith k o s).m =
      ⟨aluResult (effectiveCtl s k).aluOp (operandA s o) (operandB s (effectiveCtl s k).bSel o),
        operandA s o,
        (flagsOut s (effectiveCtl s k).aluOp (operandA s o) (operandB s (effectiveCtl s k).bSel o)).z,
        (flagsOut s (effectiveCtl s k).aluOp (operandA s o) (operandB s (effectiveCtl s k).bSel o)).c,
        o.ra, (effectiveCtl s k).rwe, (effectiveCtl s k).wsel, (effectiveCtl s k).mwe, s.e.pc,
        s.e.fl || stallCondition s⟩ := by
  simp [clockWith, latchM]

/-- What data memory receives in any clock (R134). -/
theorem clockWith_dm (k : Ctl) (o : Operands) (s : State) :
    (clockWith k o s).dm =
      if (effectiveCtl s k).mwe = true then
        writeCell s.dm
          (aluResult (effectiveCtl s k).aluOp (operandA s o) (operandB s (effectiveCtl s k).bSel o))
          (operandA s o)
      else s.dm := rfl

/-! ### A clock in which the word in Execute does not execute -/

theorem taken_inert (s : State) : taken s .inert = false := by
  simp [taken, Ctl.inert]

/-- A flushed or stalled slot writes no memory and enters MemoryAccess inert (R141, R143). -/
theorem clockWith_idle {s : State} (h : ¬ ExecutesNow s) (k : Ctl) (o : Operands) :
    (clockWith k o s).dm = s.dm ∧ EntersInert s (clockWith k o s) o.ra true := by
  have hk := effectiveCtl_inert h k
  have hfl : (s.e.fl || stallCondition s) = true := by
    by_contra hn
    simp only [Bool.or_eq_true, not_or, Bool.not_eq_true] at hn
    exact h ⟨hn.1, (stallCondition_false_iff s).mp hn.2⟩
  refine ⟨?_, ?_⟩
  · simp [clockWith_dm, hk, Ctl.inert]
  · simp [EntersInert, clockWith_m, hk, Ctl.inert, flagsOut, operandA, hfl]

/-- In a stall the three front stages hold (R145). -/
theorem clockWith_stalled {s : State} (h : Stalled s) (k : Ctl) (o : Operands) :
    HoldsBack s (clockWith k o s) := by
  simp [HoldsBack, clockWith, latchE, latchD, latchF, (stallCondition_iff s).mpr h]

/-- A flushed slot in a clock without a stall: the younger words move on. -/
theorem clockWith_flushed {s : State} (hf : s.e.fl = true) (h : ¬ Stalled s) (k : Ctl) (o : Operands) :
    FlowsOn s (clockWith k o s) := by
  have hs := (stallCondition_false_iff s).mpr h
  have hk : effectiveCtl s k = .inert := effectiveCtl_inert (by simp [ExecutesNow, hf]) k
  have ht : taken s (effectiveCtl s k) = false := by rw [hk]; exact taken_inert s
  have hpc : nextPc s (effectiveCtl s k) o = s.f.pc + 1#12 := by
    rw [hk]
    rfl
  simp [FlowsOn, clockWith, latchE, latchD, latchF, hs, ht, hpc]

/-! ### A clock in which it does -/

/-- The front stages when the word in Execute executes: redirected when the transfer is taken, else they
flow on (R137 to R139, R157, R158). -/
theorem clockWith_front {s : State} (h : ExecutesNow s) (k : Ctl) (o : Operands) :
    (taken s k = false → FlowsOn s (clockWith k o s)) ∧
    (∀ target, taken s k = true → transferTarget s k o = some target →
      Redirects s (clockWith k o s) target) := by
  have hs := (stallCondition_false_iff s).mpr h.2
  have hk := effectiveCtl_executes h k
  refine ⟨fun ht => ?_, fun target ht htgt => ?_⟩
  · have hpc : nextPc s k o = s.f.pc + 1#12 := by
      unfold nextPc
      split <;> simp [ht, pcSucc]
    simp [FlowsOn, clockWith, latchE, latchD, latchF, hs, hk, ht, hpc]
  · have hpc : nextPc s k o = target := by simp [nextPc, htgt, ht]
    refine ⟨by simp [clockWith, latchF, hs, hk, hpc], fun hfl => ?_, fun hfl => ?_⟩ <;>
      simp [clockWith, latchE, latchD, hs, hk, ht, hfl]

end Sys2Proof.Machine
end

