-- ==== Sys2Proof/Laws/Step.lean ====
section
/-! SUPPORT. What a step can do. -/

namespace Sys2Proof.Machine

/-- The operand fields an instruction gives the datapath: its own, but for `nop`, which has none and
leaves the word's bits to the field extraction (R147, R200). -/
def instrOperands (s : State) : Instr → Operands
  | .nop => operandsOfWord s.e.ir
  | .movRR rd rs => operandsRR rd rs
  | .movRI rd imm => operandsRI rd imm
  | .addRR rd rs => operandsRR rd rs
  | .addRI rd imm => operandsRI rd imm
  | .subRR rd rs => operandsRR rd rs
  | .subRI rd imm => operandsRI rd imm
  | .andRR rd rs => operandsRR rd rs
  | .andRI rd imm => operandsRI rd imm
  | .orRR rd rs => operandsRR rd rs
  | .orRI rd imm => operandsRI rd imm
  | .xorRR rd rs => operandsRR rd rs
  | .xorRI rd imm => operandsRI rd imm
  | .shlRR rd rs => operandsRR rd rs
  | .shlRI rd imm => operandsRI rd imm
  | .sarRR rd rs => operandsRR rd rs
  | .sarRI rd imm => operandsRI rd imm
  | .ldRR rd rs => operandsRR rd rs
  | .ldRI rd imm => operandsRI rd imm
  | .stRR rd rs => operandsRR rd rs
  | .stRI rd imm => operandsRI rd imm
  | .jmp a => operandsA a
  | .jz a => operandsA a
  | .jnz a => operandsA a
  | .br off => operandsS off
  | .bz off => operandsS off
  | .bnz off => operandsS off

/-- Every arm is one clock with the control table's row and the instruction's operands. -/
theorem exec_eq_clockWith (i : Instr) (s : State) :
    exec i s =
      .next (clockWith (controlTable.getD i.opcode Ctl.inert) (instrOperands s i) s) := by
  cases i <;> rfl

/-- What a step that answers a next state did: a clock with a flushed slot, or the clock of the decoded
instruction. -/
theorem step_cases {s t : State} (h : step s = .next t) :
    (s.e.fl = true ∧ t = bubbleClock s) ∨
    (s.e.fl = false ∧ ∃ i, decode s.e.ir = .ok i ∧ exec i s = .next t) := by
  unfold step at h
  split at h
  · left
    cases h
    exact ⟨‹_›, rfl⟩
  · right
    refine ⟨by simpa using ‹¬ s.e.fl = true›, ?_⟩
    split at h
    · exact ⟨_, ‹_›, h⟩
    · rename_i err _
      cases err
      cases h

/-- Every next state is one clock on. -/
theorem step_is_clock {s t : State} (h : step s = .next t) : ∃ k o, t = clockWith k o s := by
  rcases step_cases h with ⟨_, rfl⟩ | ⟨_, i, _, hx⟩
  · exact ⟨_, _, rfl⟩
  · rw [exec_eq_clockWith] at hx
    cases hx
    exact ⟨_, _, rfl⟩

/-- A step never refuses; it faults only on an unflushed undefined word. -/
theorem step_stops {s : State} (h : ∀ t, step s ≠ .next t) :
    s.e.fl = false ∧ 27 ≤ (opcodeOf s.e.ir).toNat ∧
      step s = .fault (.engineFault (opcodeOf s.e.ir)) := by
  by_cases hf : s.e.fl = true
  · exact absurd (by simp [step, hf]) (h (bubbleClock s))
  · have hf' : s.e.fl = false := by simpa using hf
    rcases decode_cases s.e.ir with ⟨_, i, hi, _⟩ | ⟨hge, herr⟩
    · have hs : step s = exec i s := by simp [step, hf', hi]
      exact absurd (hs.trans (exec_eq_clockWith i s)) (h _)
    · exact ⟨hf', hge, by simp [step, hf', herr, faultOfDecode, raiseEngineFault]⟩

/-- The word placed where the next step runs it is the word in Execute, unflushed and unstalled. -/
theorem withFetchWord_executes (s : State) (nbits w : Nat) :
    (s.withFetchWord nbits w).e.ir = BitVec.ofNat 18 (w % 2 ^ nbits) ∧
      ExecutesNow (s.withFetchWord nbits w) := by
  refine ⟨rfl, rfl, ?_⟩
  intro hst
  unfold Stalled at hst
  simp only [State.withFetchWord, placeInExecute_m, placeInExecute_stallEn] at hst
  split at hst
  · simp at hst
  · exact absurd ((stallCondition_iff s).mpr hst) ‹_›

/-! ### `executedWithin` -/

@[simp] theorem executedWithin_zero (s : State) : executedWithin 0 s = 0 := rfl

/-- One more clock: it counts when a program word executes in it. -/
theorem executedWithin_succ {s t : State} (k : Nat) (h : step s = .next t) :
    executedWithin (k + 1) s =
      (if executeHoldsProgramWord s = true ∧ stallCondition s = false then 1 else 0) +
        executedWithin k t := by
  simp only [executedWithin, h]

end Sys2Proof.Machine
end

