-- ==== Sys2Proof/Tests/Slice0.lean ====
section
/-! SUPPORT. The writer's own tests: the words, ALU values and end states are those of
spec/95_test_vectors.md, and each statement that has hypotheses has a witness that meets them. -/

namespace Sys2Proof.Tests

open Sys2Proof.Machine

/-! ### Well-formedness: one ill-formed term for each check -/

theorem test_wf_refuses_br_above : (Instr.br 2048).wf = false := by decide
theorem test_wf_refuses_br_below : (Instr.br (-2049)).wf = false := by decide
theorem test_wf_refuses_bz_above : (Instr.bz 2048).wf = false := by decide
theorem test_wf_refuses_bz_below : (Instr.bz (-2049)).wf = false := by decide
theorem test_wf_refuses_bnz_above : (Instr.bnz 2048).wf = false := by decide
theorem test_wf_refuses_bnz_below : (Instr.bnz (-2049)).wf = false := by decide
theorem test_wf_accepts_bounds :
    (Instr.br (-2048)).wf = true ∧ (Instr.br 2047).wf = true ∧ (Instr.bz (-2048)).wf = true ∧
      (Instr.bnz 2047).wf = true := by decide
theorem test_word_27_undefined : wordDefined 0x1B000#18 = false := by decide
theorem test_word_26_defined : wordDefined 0x1AFFF#18 = true := by decide
theorem test_program_refuses_undefined : programWf [0x02005#18, 0x1B000#18] = false := by decide
theorem test_program_refuses_too_long (p : List Word) (h : p.length = 4097) : programWf p = false := by
  simp [programWf, h, Config.maxProgramLength]
theorem test_program_too_long_exists : (List.replicate 4097 (0#18 : Word)).length = 4097 :=
  List.length_replicate

/-! ### Words, written out from the encoding (V1, V2) -/

theorem test_word_nop : decode 0x00000#18 = .ok (.nop) ∧ encode (.nop) = 0x00000#18 := by decide
theorem test_word_movRR : decode 0x01210#18 = .ok (.movRR 2#4 1#4) ∧ encode (.movRR 2#4 1#4) = 0x01210#18 := by decide
theorem test_word_movRI : decode 0x02005#18 = .ok (.movRI 0#4 5#8) ∧ encode (.movRI 0#4 5#8) = 0x02005#18 := by decide
theorem test_word_addRR : decode 0x03010#18 = .ok (.addRR 0#4 1#4) ∧ encode (.addRR 0#4 1#4) = 0x03010#18 := by decide
theorem test_word_addRI : decode 0x04001#18 = .ok (.addRI 0#4 1#8) ∧ encode (.addRI 0#4 1#8) = 0x04001#18 := by decide
theorem test_word_subRR : decode 0x05340#18 = .ok (.subRR 3#4 4#4) ∧ encode (.subRR 3#4 4#4) = 0x05340#18 := by decide
theorem test_word_subRI : decode 0x06101#18 = .ok (.subRI 1#4 1#8) ∧ encode (.subRI 1#4 1#8) = 0x06101#18 := by decide
theorem test_word_andRR : decode 0x07120#18 = .ok (.andRR 1#4 2#4) ∧ encode (.andRR 1#4 2#4) = 0x07120#18 := by decide
theorem test_word_andRI : decode 0x0810F#18 = .ok (.andRI 1#4 0x0F#8) ∧ encode (.andRI 1#4 0x0F#8) = 0x0810F#18 := by decide
theorem test_word_orRR : decode 0x09120#18 = .ok (.orRR 1#4 2#4) ∧ encode (.orRR 1#4 2#4) = 0x09120#18 := by decide
theorem test_word_orRI : decode 0x0A580#18 = .ok (.orRI 5#4 0x80#8) ∧ encode (.orRI 5#4 0x80#8) = 0x0A580#18 := by decide
theorem test_word_xorRR : decode 0x0B110#18 = .ok (.xorRR 1#4 1#4) ∧ encode (.xorRR 1#4 1#4) = 0x0B110#18 := by decide
theorem test_word_xorRI : decode 0x0C1FF#18 = .ok (.xorRI 1#4 0xFF#8) ∧ encode (.xorRI 1#4 0xFF#8) = 0x0C1FF#18 := by decide
theorem test_word_shlRR : decode 0x0D120#18 = .ok (.shlRR 1#4 2#4) ∧ encode (.shlRR 1#4 2#4) = 0x0D120#18 := by decide
theorem test_word_shlRI : decode 0x0E104#18 = .ok (.shlRI 1#4 4#8) ∧ encode (.shlRI 1#4 4#8) = 0x0E104#18 := by decide
theorem test_word_sarRR : decode 0x0F120#18 = .ok (.sarRR 1#4 2#4) ∧ encode (.sarRR 1#4 2#4) = 0x0F120#18 := by decide
theorem test_word_sarRI : decode 0x10102#18 = .ok (.sarRI 1#4 2#8) ∧ encode (.sarRI 1#4 2#8) = 0x10102#18 := by decide
theorem test_word_ldRR : decode 0x11120#18 = .ok (.ldRR 1#4 2#4) ∧ encode (.ldRR 1#4 2#4) = 0x11120#18 := by decide
theorem test_word_ldRI : decode 0x12110#18 = .ok (.ldRI 1#4 0x10#8) ∧ encode (.ldRI 1#4 0x10#8) = 0x12110#18 := by decide
theorem test_word_stRR : decode 0x13120#18 = .ok (.stRR 1#4 2#4) ∧ encode (.stRR 1#4 2#4) = 0x13120#18 := by decide
theorem test_word_stRI : decode 0x14010#18 = .ok (.stRI 0#4 0x10#8) ∧ encode (.stRI 0#4 0x10#8) = 0x14010#18 := by decide
theorem test_word_jmp : decode 0x1500A#18 = .ok (.jmp 10#12) ∧ encode (.jmp 10#12) = 0x1500A#18 := by decide
theorem test_word_jz : decode 0x16004#18 = .ok (.jz 4#12) ∧ encode (.jz 4#12) = 0x16004#18 := by decide
theorem test_word_jnz : decode 0x17002#18 = .ok (.jnz 2#12) ∧ encode (.jnz 2#12) = 0x17002#18 := by decide
theorem test_word_br : decode 0x18FFE#18 = .ok (.br (-2)) ∧ encode (.br (-2)) = 0x18FFE#18 := by decide
theorem test_word_bz : decode 0x19003#18 = .ok (.bz 3) ∧ encode (.bz 3) = 0x19003#18 := by decide
theorem test_word_bnz : decode 0x1AFFE#18 = .ok (.bnz (-2)) ∧ encode (.bnz (-2)) = 0x1AFFE#18 := by decide

/-- Bits 3 to 0 of format `RR` and bits 11 to 0 of `nop` are ignored (V2). -/
theorem test_unused_bits :
    decode 0x0301F#18 = .ok (.addRR 0#4 1#4) ∧ decode 0x00ABC#18 = .ok .nop := by decide
theorem test_branch_extremes :
    decode 0x187FF#18 = .ok (.br 2047) ∧ decode 0x18800#18 = .ok (.br (-2048)) := by decide
theorem test_undefined_words :
    decode 0x1B000#18 = .error (.noDescriptor 27#6) ∧
      decode 0x3FFFF#18 = .error (.noDescriptor 63#6) := by decide
theorem test_table_word :
    decodeTableWord 24 0x14FFF = some (.stRI 15#4 0xFF#8) ∧ decodeTableWord 24 0x1B000 = none ∧
      decodeTableWord 24 0x40000 = none := by decide

/-! ### The ALU (V3) -/

theorem test_alu_add :
    aluResult .add 0xFF#8 1#8 = 0#8 ∧ aluFlags .add 0xFF#8 1#8 = some ⟨true, true⟩ ∧
      aluResult .add 0x7F#8 1#8 = 0x80#8 ∧ aluFlags .add 0x7F#8 1#8 = some ⟨false, false⟩ := by decide
theorem test_alu_sub :
    aluResult .sub 3#8 5#8 = 0xFE#8 ∧ aluFlags .sub 3#8 5#8 = some ⟨false, true⟩ ∧
      aluResult .sub 0x80#8 0x80#8 = 0#8 ∧ aluFlags .sub 0x80#8 0x80#8 = some ⟨true, false⟩ := by decide
theorem test_alu_logic :
    aluResult .and 0xF0#8 0x3C#8 = 0x30#8 ∧ aluResult .or 0xF0#8 0x0F#8 = 0xFF#8 ∧
      aluResult .xor 0x55#8 0xFF#8 = 0xAA#8 ∧ aluFlags .xor 0x5A#8 0x5A#8 = some ⟨true, false⟩ := by decide
theorem test_alu_shl :
    aluResult .shl 0x81#8 1#8 = 2#8 ∧ aluResult .shl 0xFF#8 7#8 = 0x80#8 ∧
      aluResult .shl 0xFF#8 8#8 = 0#8 ∧ aluResult .shl 1#8 0xFF#8 = 0#8 ∧
      aluFlags .shl 0xFF#8 8#8 = none := by decide
theorem test_alu_sar :
    aluResult .sar 0x84#8 2#8 = 0xE1#8 ∧ aluResult .sar 0x80#8 7#8 = 0xFF#8 ∧
      aluResult .sar 0x80#8 0xFF#8 = 0xFF#8 ∧ aluResult .sar 0x7F#8 7#8 = 0#8 ∧
      aluResult .sar 0x96#8 4#8 = 0xF9#8 := by decide

/-! ### One step -/

/-- The reset state with word `w` in Execute at address 7, flags as given, cells 1, 2 and 3 and data cell
0x10 set as in V4 and V5. -/
def holding (w : Word) (z c : Bool) (x1 x2 x3 : Byte) : State :=
  { State.reset with
    x := writeReg (writeReg (writeReg State.reset.x 1#4 x1) 2#4 x2) 3#4 x3
    dm := writeCell [] 0x10#8 0x2A#8
    f := ⟨9#12⟩
    d := ⟨0x0237F#18, 8#12, false⟩
    e := ⟨w, 7#12, false⟩
    m := { MemRegs.reset with z := z, c := c }
    cycle := 9
    program := List.replicate 8 0x00000#18 ++ [0x0237F#18, 0x02401#18] }

/-- The state a next outcome holds. -/
def after (o : Host.Outcome State Fault Refusal) : State :=
  match o with
  | .next t => t
  | .fault _ => State.reset
  | .refused _ => State.reset

/-- `holding` with a load of cell 0x10 into `x[1]` in MemoryAccess. -/
def loading (w : Word) : State :=
  { holding w false false 7#8 0x10#8 0#8 with
    m := { MemRegs.reset with res := 0x10#8, rd := 1#4, rwe := true, wsel := .mem } }

/-- `holding` with an ALU result 9 for `x[1]` in MemoryAccess. -/
def writing (w : Word) : State :=
  { holding w false false 5#8 0x10#8 0#8 with
    m := { MemRegs.reset with res := 9#8, rd := 1#4, rwe := true } }

/-- Execute holds a flushed slot. -/
def flushed : State :=
  { holding 0#18 true true 1#8 2#8 3#8 with e := ⟨0#18, 7#12, true⟩ }

/-- What MemoryAccess holds after one step: result, destination, write enable, `Z`, `C`. -/
def written (s : State) : Byte × RegIx × Bool × Bool × Bool :=
  let t := after (step s)
  (t.m.res, t.m.rd, t.m.rwe, t.m.z, t.m.c)

theorem test_step_nop : (after (step (holding 0x00000#18 true true 1#8 2#8 3#8))).m.rwe = false := by decide
theorem test_step_mov_register :
    written (holding 0x01210#18 true true 0x2A#8 0#8 0#8) = (0x2A#8, 2#4, true, true, true) := by decide
theorem test_step_mov_zero_keeps_z :
    written (holding 0x02300#18 false false 0#8 0#8 7#8) = (0#8, 3#4, true, false, false) := by decide
theorem test_step_add_register :
    written (holding 0x03110#18 false false 0x80#8 0#8 0#8) = (0#8, 1#4, true, true, true) := by decide
theorem test_step_add_immediate :
    written (holding 0x04101#18 false false 0xFF#8 0#8 0#8) = (0#8, 1#4, true, true, true) := by decide
theorem test_step_sub_register :
    written (holding 0x05120#18 false false 3#8 5#8 0#8) = (0xFE#8, 1#4, true, false, true) := by decide
theorem test_step_sub_immediate :
    written (holding 0x06101#18 false true 1#8 0#8 0#8) = (0#8, 1#4, true, true, false) := by decide
theorem test_step_and_clears_carry :
    written (holding 0x07120#18 false true 0xF0#8 0x3C#8 0#8) = (0x30#8, 1#4, true, false, false) := by decide
theorem test_step_and_immediate :
    written (holding 0x0810F#18 false true 0xF0#8 0#8 0#8) = (0#8, 1#4, true, true, false) := by decide
theorem test_step_or_register :
    written (holding 0x09120#18 true true 0xF0#8 0x0F#8 0#8) = (0xFF#8, 1#4, true, false, false) := by decide
theorem test_step_or_immediate :
    written (holding 0x0A380#18 true true 0#8 0#8 1#8) = (0x81#8, 3#4, true, false, false) := by decide
theorem test_step_xor_register :
    written (holding 0x0B110#18 false true 0x5A#8 0#8 0#8) = (0#8, 1#4, true, true, false) := by decide
theorem test_step_xor_immediate :
    written (holding 0x0C1FF#18 true true 0x55#8 0#8 0#8) = (0xAA#8, 1#4, true, false, false) := by decide
theorem test_step_shl_register :
    written (holding 0x0D120#18 true false 0x81#8 1#8 0#8) = (2#8, 1#4, true, true, false) := by decide
theorem test_step_shl_out :
    written (holding 0x0E108#18 false true 0xFF#8 0#8 0#8) = (0#8, 1#4, true, false, true) := by decide
theorem test_step_sar_register :
    written (holding 0x0F120#18 true false 0x80#8 1#8 0#8) = (0xC0#8, 1#4, true, true, false) := by decide
theorem test_step_sar_immediate :
    written (holding 0x10109#18 false true 0x7F#8 0#8 0#8) = (0#8, 1#4, true, false, true) := by decide
theorem test_step_ld_register :
    let t := after (step (holding 0x11120#18 true true 0#8 0x10#8 0#8))
    t.m.wsel = .mem ∧ readReg (after (step t)).x 1#4 = 0x2A#8 ∧ t.m.z = true ∧ t.m.c = true := by decide
theorem test_step_ld_never_stored :
    readReg (after (step (after (step (holding 0x121FF#18 true true 9#8 0#8 0#8))))).x 1#4 = 0#8 := by decide
theorem test_step_st_register :
    let t := after (step (holding 0x13330#18 true true 0#8 0#8 0x44#8))
    t.dm = [(0x10, 0x2A#8), (0x44, 0x44#8)] ∧ t.m.rwe = false := by decide
theorem test_step_st_zero_removes_entry :
    (after (step (holding 0x14110#18 true true 0#8 0#8 0#8))).dm = [] := by decide
theorem test_step_jmp :
    let t := after (step (holding 0x1500A#18 false false 0#8 0#8 0#8))
    t.f.pc = 10#12 ∧ t.e = ⟨0#18, 8#12, true⟩ ∧ t.d = ⟨0#18, 9#12, true⟩ := by decide
theorem test_step_jz :
    (after (step (holding 0x16004#18 true false 0#8 0#8 0#8))).f.pc = 4#12 ∧
      (after (step (holding 0x16004#18 false false 0#8 0#8 0#8))).f.pc = 10#12 := by decide
theorem test_step_jnz :
    (after (step (holding 0x17002#18 false false 0#8 0#8 0#8))).f.pc = 2#12 ∧
      (after (step (holding 0x17002#18 true false 0#8 0#8 0#8))).f.pc = 10#12 := by decide
theorem test_step_br_backward : (after (step (holding 0x18FFE#18 false false 0#8 0#8 0#8))).f.pc = 5#12 := by decide
theorem test_step_br_wraps : (after (step (holding 0x18FF8#18 false false 0#8 0#8 0#8))).f.pc = 4095#12 := by decide
theorem test_step_bz :
    (after (step (holding 0x19003#18 true false 0#8 0#8 0#8))).f.pc = 10#12 ∧
      (after (step (holding 0x19003#18 true false 0#8 0#8 0#8))).e.fl = true ∧
      (after (step (holding 0x19003#18 false false 0#8 0#8 0#8))).e.fl = false := by decide
theorem test_step_bnz :
    (after (step (holding 0x1AFFB#18 false false 0#8 0#8 0#8))).f.pc = 2#12 ∧
      (after (step (holding 0x1AFFB#18 true false 0#8 0#8 0#8))).f.pc = 10#12 := by decide

/-- Forwarding from MemoryAccess, and not without the policy (V9, distance 1). -/
theorem test_forwarding :
    (after (step (writing 0x01210#18))).m.res = 9#8 ∧
      (after (step (setPolicies (writing 0x01210#18) false true true))).m.res = 5#8 := by decide

/-- A load in MemoryAccess holds the next instruction for a clock; without the policy it reads the pre-load
value (V9). -/
theorem test_load_use :
    (after (step (loading 0x01210#18))).e.ir = 0x01210#18 ∧
      (after (step (after (step (loading 0x01210#18))))).m.res = 0x2A#8 ∧
      (after (step (setPolicies (loading 0x01210#18) true true false))).m.res = 7#8 := by decide

/-- The fault test comes before the stall test (V10). -/
theorem test_fault_in_a_stall : step (loading 0x1B000#18) = .fault (.engineFault 27#6) := rfl
theorem test_fault_63 : step (holding 0x3FFFF#18 false false 0#8 0#8 0#8) = .fault (.engineFault 63#6) := rfl

/-- A word placed for the next step runs in it. -/
theorem test_placed_word : (after (step (State.reset.withFetchWord 24 0x02005))).m.res = 5#8 := by decide

/-! ### The assembler (V13) -/

/-- A source text of these characters. -/
abbrev source (text : String) : List Char := text.toList

theorem test_assemble_mov : assemble (source "mov r0 xff ; comment") = .ok [0x020FF#18] := by decide
theorem test_assemble_range : assemble (source "br x800") = .error [⟨1, .noDescriptorFits⟩] := by decide
theorem test_assemble_short_label : assemble (source "ab:") = .error [⟨1, .labelTooShort⟩] := by decide
/-- A label is a number: `loop:` at address 1 fits an Immediate (as in V13). -/
theorem test_assemble_label : assemble (source "nop\nloop:\nmov r0 loop") = .ok [0#18, 0x02001#18] := by decide
theorem test_label_address_last : labelAddress 4095 = 4095#12 := by decide
theorem test_render_br : render (.br (-2048)) = source "br -x800" := by decide

/-! ### Witnesses: states that meet the hypotheses of the statements -/

/-- Words for `holding`, all cells and flags alike. -/
abbrev held (w : Word) : State := holding w false false 0x2A#8 0x10#8 3#8

/-- `State.reset` with a program bound. -/
abbrev bound : State := State.resetWith [0x02005#18, 0x15000#18] true true true

/-- The last state of the first two clocks of `bound`: its first word is in Execute. -/
def started : State := after (step (after (step bound)))

/-- What `inspect` gives, where it gives values. -/
def shown (s : State) : Comb :=
  match inspect s with
  | .ok c => c
  | .error _ => evaluate .inert (operandsOfWord s.e.ir) s

theorem executes (w : Word) : ExecutesNow (held w) :=
  ⟨rfl, fun h => Bool.noConfusion h.2.1⟩

theorem stalls (w : Word) : Stalled (loading w) := ⟨rfl, rfl, rfl⟩

theorem test_witness_DecodeOfEncode :
    (Instr.br (-2048)).wf = true ∧ (Instr.bnz 2047).wf = true := by decide
theorem test_witness_EncodeOfDecode :
    decode 0x18800#18 = .ok (.br (-2048)) ∧ canonicalWord 0x18800#18 = true ∧
      canonicalWord 0x03010#18 = true ∧ canonicalWord 0x0301F#18 = false := by decide
theorem test_witness_DescriptorRoundTrip :
    (⟨"br", 24, formatS⟩ : Descriptor) ∈ descriptors ∧ operandsInRange formatS [-2048] = true ∧
      operandsInRange formatS [2047] = true ∧ operandsInRange formatRI [15, 255] = true := by decide
theorem test_witness_UnusedBitsAreIgnored :
    opcodeOf 0x0301F#18 = opcodeOf 0x03010#18 ∧ fieldRd 0x0301F#18 = fieldRd 0x03010#18 ∧
      fieldRs 0x0301F#18 = fieldRs 0x03010#18 ∧ (opcodeOf 0x00ABC#18).toNat = 0 := by decide
theorem test_witness_UndefinedOpcodes :
    (held 0x1B000#18).e.fl = false ∧ 27 ≤ (opcodeOf (held 0x1B000#18).e.ir).toNat ∧
      27 ≤ (opcodeOf 0x3FFFF#18).toNat ∧ ¬ 27 ≤ (opcodeOf 0x1AFFF#18).toNat := by decide
theorem test_witness_OpcodeDispatch :
    (held 0x00000#18).e.fl = false ∧ (opcodeOf (held 0x00000#18).e.ir).toNat < 27 ∧
      (opcodeOf (held 0x1AFFF#18).e.ir).toNat < 27 ∧
      opcodeOf (held 0x03010#18).e.ir = opcodeOf (held 0x03FF0#18).e.ir := by decide
theorem test_witness_StepRunsTheDecodedInstruction :
    (held 0x02005#18).e.fl = false ∧ decode (held 0x02005#18).e.ir = .ok (.movRI 0#4 5#8) := by decide
theorem test_witness_PlacedWordRunsNext :
    decodeTableWord 24 0x02005 = some (.movRI 0#4 5#8) ∧ decodeTableWord 24 0x1AFFF = some (.bnz (-1)) := by
  decide
theorem test_witness_InertSlots_flushed :
    flushed.e.fl = true ∧ ¬ ExecutesNow flushed ∧ lookupControl flushed = .ok .inert ∧
      inspect flushed = .ok (shown flushed) ∧ step flushed = .next (after (step flushed)) :=
  ⟨rfl, fun h => Bool.noConfusion h.1, rfl, rfl, rfl⟩
theorem test_witness_InertSlots_stalled :
    (loading 0x03120#18).e.fl = false ∧ Stalled (loading 0x03120#18) ∧
      ¬ ExecutesNow (loading 0x03120#18) ∧
      lookupControl (loading 0x03120#18) = .ok (.compute .add .reg) ∧
      inspect (loading 0x03120#18) = .ok (shown (loading 0x03120#18)) ∧
      step (loading 0x03120#18) = .next (after (step (loading 0x03120#18))) :=
  ⟨rfl, stalls _, fun h => h.2 (stalls _), rfl, rfl, rfl⟩
theorem test_witness_InertSlots_executing :
    ExecutesNow (held 0x03120#18) ∧ lookupControl (held 0x03120#18) = .ok (.compute .add .reg) ∧
      inspect (held 0x03120#18) = .ok (shown (held 0x03120#18)) := ⟨executes _, rfl, rfl⟩
theorem test_witness_StepLatchesWhatInspectShows :
    inspect (held 0x03120#18) = .ok (shown (held 0x03120#18)) ∧
      inspect (held 0x1B000#18) = .error (.engineFault 27#6) := ⟨rfl, rfl⟩
theorem test_witness_OperandBRule :
    inspect (held 0x04101#18) = .ok (shown (held 0x04101#18)) ∧
      (shown (held 0x04101#18)).ctl.bSel = .imm ∧
      inspect (held 0x03120#18) = .ok (shown (held 0x03120#18)) ∧
      (shown (held 0x03120#18)).ctl.bSel = .reg := ⟨rfl, rfl, rfl, rfl⟩
/-- An operation that writes the flags and one that does not. -/
theorem test_witness_InspectionShowsRawAndForwardedValues :
    inspect (held 0x03120#18) = .ok (shown (held 0x03120#18)) ∧ (held 0x03120#18).e.fl = false ∧
      (shown (held 0x03120#18)).ctl.bSel = .reg ∧ (shown (held 0x03120#18)).eFwe = true ∧
      inspect (held 0x01210#18) = .ok (shown (held 0x01210#18)) ∧
      (shown (held 0x01210#18)).eFwe = false := ⟨rfl, rfl, rfl, rfl, rfl, rfl⟩
/-- The host sees the stale cell beside the forwarded operand, and the row of the opcode in a stall too. -/
theorem test_inspect_raw :
    (shown (writing 0x01210#18)).bRaw = 5#8 ∧ (shown (writing 0x01210#18)).eB = 9#8 ∧
      (shown (writing 0x01210#18)).aluZC = none ∧
      (shown (loading 0x03120#18)).ctl0 = some (.compute .add .reg) ∧
      (shown (loading 0x03120#18)).ctl = .inert := by decide
/-- For every completion statement from `nop` to `st` and for the jumps: the hypothesis is
`ExecutesNow` alone. -/
theorem test_witness_completion :
    ExecutesNow (held 0x00000#18) ∧ ExecutesNow (held 0x0D120#18) ∧ ExecutesNow (held 0x16004#18) :=
  ⟨executes _, executes _, executes _⟩
/-- The result rules' clauses on the clock after: the next state steps on. -/
theorem test_witness_result_rules :
    step (after (exec (.addRR 1#4 2#4) (held 0x03120#18))) =
      .next (after (step (after (exec (.addRR 1#4 2#4) (held 0x03120#18))))) ∧
    readReg SeqState.reset.x 1#4 = 0#8 := ⟨rfl, by decide⟩
theorem test_witness_BranchCompletes :
    ExecutesNow (held 0x18800#18) ∧ (-2048 : Int) ≤ -2048 ∧ (-2048 : Int) ≤ 2047 ∧
      (-2048 : Int) ≤ 2047 ∧ (2047 : Int) ≤ 2047 := ⟨executes _, by decide⟩
theorem test_witness_StallHoldsForOneClock :
    (loading 0x03120#18).e.fl = false ∧ Stalled (loading 0x03120#18) := ⟨rfl, stalls _⟩
theorem test_witness_TakenTransfer :
    inspect (held 0x1500A#18) = .ok (shown (held 0x1500A#18)) ∧
      (shown (held 0x1500A#18)).fFlush = true := ⟨rfl, rfl⟩
/-- For the statements about any step. -/
theorem test_witness_step :
    step (held 0x03120#18) = .next (after (step (held 0x03120#18))) := rfl
theorem test_witness_LoadDeliversTheCell :
    ExecutesNow (held 0x11120#18) ∧
      exec (.ldRR 1#4 2#4) (held 0x11120#18) = .next (after (exec (.ldRR 1#4 2#4) (held 0x11120#18))) ∧
      step (after (exec (.ldRR 1#4 2#4) (held 0x11120#18))) =
        .next (after (step (after (exec (.ldRR 1#4 2#4) (held 0x11120#18))))) ∧
      exec (.ldRI 1#4 0xFF#8) (held 0x121FF#18) =
        .next (after (exec (.ldRI 1#4 0xFF#8) (held 0x121FF#18))) ∧
      step (after (exec (.ldRI 1#4 0xFF#8) (held 0x121FF#18))) =
        .next (after (step (after (exec (.ldRI 1#4 0xFF#8) (held 0x121FF#18))))) :=
  ⟨executes _, rfl, rfl, rfl, rfl⟩

/-- The state after `st r1 x30`, then the one after `ld r2 x30`. -/
def stored : State := after (exec (.stRI 1#4 0x30#8) (held 0x14130#18))

/-- See `stored`. -/
def storedThenLoaded : State := after (exec (.ldRI 2#4 0x30#8) stored)

theorem stored_executes : ExecutesNow stored := ⟨rfl, fun h => absurd h.2.1 (by decide)⟩

theorem test_witness_LoadSeesTheStoreBeforeIt :
    ExecutesNow (held 0x14130#18) ∧ exec (.stRI 1#4 0x30#8) (held 0x14130#18) = .next stored ∧
      ExecutesNow stored ∧ exec (.ldRI 2#4 0x30#8) stored = .next storedThenLoaded ∧
      step storedThenLoaded = .next (after (step storedThenLoaded)) :=
  ⟨executes _, rfl, stored_executes, rfl, rfl⟩

/-- The state after `st r1 r2` (cell 0x10), then the one after `ld r3 r2`. -/
def storedByRegister : State := after (exec (.stRR 1#4 2#4) (held 0x13120#18))

/-- See `storedByRegister`. -/
def loadedByRegister : State := after (exec (.ldRR 3#4 2#4) storedByRegister)

theorem test_witness_LoadSeesTheStoreBeforeIt_registers :
    ExecutesNow (held 0x13120#18) ∧
      exec (.stRR 1#4 2#4) (held 0x13120#18) = .next storedByRegister ∧
      regOperand (held 0x13120#18) 2#4 = 0x10#8 ∧ ExecutesNow storedByRegister ∧
      exec (.ldRR 3#4 2#4) storedByRegister = .next loadedByRegister ∧
      regOperand storedByRegister 2#4 = 0x10#8 ∧
      exec (.ldRI 3#4 0x10#8) storedByRegister =
        .next (after (exec (.ldRI 3#4 0x10#8) storedByRegister)) ∧
      step loadedByRegister = .next (after (step loadedByRegister)) :=
  ⟨executes _, rfl, by decide, ⟨rfl, fun h => absurd h.2.1 (by decide)⟩, rfl, by decide, rfl, rfl⟩
theorem test_witness_FetchReadsTheProgramOrZero :
    step (held 0x03120#18) = .next (after (step (held 0x03120#18))) ∧ ¬ Stalled (held 0x03120#18) ∧
      (after (step (held 0x03120#18))).d.fl = false ∧
      (9#12).toNat < (held 0x03120#18).program.length ∧
      (held 0x03120#18).program.length ≤ (10#12).toNat := ⟨rfl, (executes _).2, rfl, by decide, by decide⟩
theorem test_witness_OnlyStoresChangeDataMemory :
    step (held 0x14130#18) = .next (after (step (held 0x14130#18))) ∧
      readCell (after (step (held 0x14130#18))).dm 0x30#8 ≠ readCell (held 0x14130#18).dm 0x30#8 :=
  ⟨rfl, by decide⟩
theorem test_witness_OnlyArithmeticAndLogicChangeFlags :
    step (held 0x0B110#18) = .next (after (step (held 0x0B110#18))) ∧
      (after (step (held 0x0B110#18))).m.z ≠ (held 0x0B110#18).m.z := ⟨rfl, by decide⟩
theorem test_witness_OnlyTransfersLeaveTheStraightLine :
    (step (held 0x1AFFF#18) = .next (after (step (held 0x1AFFF#18))) ∧
      (after (step (held 0x1AFFF#18))).f.pc ≠ (held 0x1AFFF#18).f.pc + 1#12) ∧
    (step (loading 0x03120#18) = .next (after (step (loading 0x03120#18))) ∧
      (after (step (loading 0x03120#18))).f.pc ≠ (loading 0x03120#18).f.pc + 1#12) :=
  ⟨⟨rfl, by decide⟩, rfl, by decide⟩
theorem test_witness_HostResetBindsOrRefuses :
    programWf [0x1AFFF#18] = true ∧ 4096 < (List.replicate 4097 (0#18 : Word)).length ∧
      [0x1B000#18].length ≤ 4096 ∧ ∃ w ∈ ([0x1B000#18] : List Word), wordDefined w = false :=
  ⟨by decide, by rw [List.length_replicate]; decide, by decide, _, List.mem_singleton.mpr rfl, by decide⟩
theorem test_witness_ResetEstablishesTheInvariants :
    hostReset [0x02005#18, 0x15000#18] State.reset = .next bound := rfl
theorem test_witness_StepKeepsMemoryCanonical :
    Memory.wf (held 0x14130#18).dm = true ∧
      step (held 0x14130#18) = .next (after (step (held 0x14130#18))) := ⟨by decide, rfl⟩
theorem test_witness_WordsDefined : WordsDefined bound :=
  ⟨List.all_eq_true.mp (by decide : ([0x02005#18, 0x15000#18] : List Word).all wordDefined = true),
    fun _ => rfl, fun _ => rfl⟩
theorem test_witness_PipelineShape : PipelineShape bound ∧ bound.flushEn = true := by
  refine ⟨⟨fun _ => ⟨rfl, rfl, rfl⟩, fun _ => rfl, fun _ => rfl, fun h => ?_, fun h => ?_, fun h => ?_,
    fun h => ?_⟩, rfl⟩
  · exact absurd h (by decide)
  · exact absurd h (by decide)
  · exact absurd h (by decide)
  · exact absurd h (by decide)
theorem started_shape : PipelineShape started := by
  refine ⟨fun h => ?_, fun h => ?_, fun _ => by decide, fun _ _ => by decide, fun _ _ => by decide,
    fun h => ?_, fun h => ?_⟩
  · exact absurd h (by decide)
  · exact absurd h (by decide)
  · exact absurd h (by decide)
  · exact absurd h (by decide)
theorem test_witness_ForwardedOperandIsTheNewestValue :
    (writing 0x01210#18).fwdEn = true ∧ WritebackMirrors (writing 0x01210#18) ∧
      ¬ ((writing 0x01210#18).m.rwe = true ∧ (writing 0x01210#18).m.wsel = .mem) :=
  ⟨rfl, fun h => Bool.noConfusion h, fun h => WSel.noConfusion h.2⟩
theorem test_witness_StaleReadsWithoutTheirPolicy :
    (setPolicies (writing 0x01210#18) false true true).fwdEn = false ∧
      (loading 0x01210#18).m.wsel = .mem ∧ WritebackMirrors (loading 0x01210#18) :=
  ⟨rfl, rfl, fun h => Bool.noConfusion h⟩
/-- Both clauses: in `started` a program word executes, in `bound` none does. -/
theorem test_witness_ClockIsSequentialOrStutters :
    (AllPolicies started ∧ PipelineShape started ∧ WritebackMirrors started ∧
      (started.m.wsel = .mem → started.m.rwe = true) ∧ step started = .next (after (step started)) ∧
      executeHoldsProgramWord started = true ∧ ¬ Stalled started) ∧
    (AllPolicies bound ∧ PipelineShape bound ∧ WritebackMirrors bound ∧
      (bound.m.wsel = .mem → bound.m.rwe = true) ∧ step bound = .next (after (step bound)) ∧
      ¬ (executeHoldsProgramWord bound = true ∧ ¬ Stalled bound)) := by
  refine ⟨⟨by unfold AllPolicies; decide, started_shape, fun h => absurd h (by decide),
    fun h => absurd h (by decide), rfl, by decide, ?_⟩, ⟨rfl, rfl, rfl⟩, test_witness_PipelineShape.1, fun h => Bool.noConfusion h,
    fun h => WSel.noConfusion h, rfl, ?_⟩
  · rintro ⟨-, h, -⟩
    exact absurd h (by decide)
  · rintro ⟨h, -⟩
    exact absurd h (by decide)
/-- And `executedWithin` counts: the third clock of `bound` is the first that executes a program word. -/
theorem test_witness_RunsAreSequential :
    programWf [0x02005#18, 0x15000#18] = true ∧ executedWithin 2 bound = 0 ∧ executedWithin 3 bound = 1 := by
  decide
theorem test_witness_SomeInstructionExecutes :
    bound.flushEn = true ∧ WordsDefined bound ∧ PipelineShape bound :=
  ⟨rfl, test_witness_WordsDefined, test_witness_PipelineShape.1⟩
theorem test_witness_DisplayFieldsAreNeverRead :
    eraseDisplay (held 0x03120#18) =
      eraseDisplay { held 0x03120#18 with m := { (held 0x03120#18).m with sd := 1#8, fl := true } } ∧
    (held 0x03120#18).m.sd ≠ 1#8 := ⟨rfl, by decide⟩
theorem test_witness_AssembledWordsAreDefined :
    assemble (source "add r0 r1") = .ok [0x03010#18] := by decide
/-- A label after one instruction line: the address is below 4096. -/
theorem test_witness_LabelIsBoundAtTheNextInstruction :
    isLabelToken (source "loop:") = true ∧
      (pass1 ([(1, [source "nop"])] ++ (2, [source "loop:"]) :: [])).diagnostics = [] ∧
      instructionLines [(1, [source "nop"])] < 4096 := by decide
theorem test_witness_RenderingAssemblesBack : (Instr.bz 2047).wf = true ∧ Instr.nop.wf = true := by decide

end Sys2Proof.Tests
end

section
/-! PROOFS. The instruction store (spec/20_memory.md R63): what a fetch reads, and what Decode
receives of it. -/

namespace Sys2Proof.Machine

/-- Decode's latch in any clock without a stall (R138, R158): the bubble of a taken transfer under the flush
policy, else the fetched word with the address it was fetched from. -/
theorem clockWith_d_of_not_stalled {s : State} (h : ¬ Stalled s) (k : Ctl) (o : Operands) :
    (clockWith k o s).d =
      if (taken s (effectiveCtl s k) && s.flushEn) = true then ⟨0#18, s.f.pc, true⟩
      else ⟨fetch s.program s.f.pc, s.f.pc, false⟩ := by
  simp [clockWith, latchD, (stallCondition_false_iff s).mpr h]

/-- An unflushed Decode slot after a clock without a stall holds the fetch at the old program counter. -/
theorem clockWith_d_of_unflushed {s : State} (h : ¬ Stalled s) (k : Ctl) (o : Operands)
    (hfl : (clockWith k o s).d.fl = false) :
    (clockWith k o s).d = ⟨fetch s.program s.f.pc, s.f.pc, false⟩ := by
  rw [clockWith_d_of_not_stalled h] at hfl ⊢
  split at hfl
  case isTrue => exact Bool.noConfusion hfl
  case isFalse hkeep => exact if_neg hkeep

/-- Settles O34: inside and outside the program by the two fetch laws; the step is some clock, and its Decode
latch is either the bubble, which the hypothesis excludes, or the fetched word. -/
theorem fetchReadsTheProgramOrZero : Obligations.FetchReadsTheProgramOrZero := by
  unfold Obligations.FetchReadsTheProgramOrZero
  refine ⟨fun p a => ⟨fetch_inside p a, fetch_outside p a⟩, fun s t hstep hrun hfl => ?_⟩
  obtain ⟨k, o, rfl⟩ := step_is_clock hstep
  have hd := clockWith_d_of_unflushed hrun k o hfl
  exact ⟨congrArg Slot.ir hd, congrArg Slot.pc hd⟩

end Sys2Proof.Machine
end

section
/-! PROOFS. The layout of a word (spec/30_encoding.md R91): an instruction's word is the one its descriptor
builds, and a descriptor's operand fields stay within the low 12 bits. -/

namespace Sys2Proof

/-! ### What a row of the descriptor table builds -/

/-- The greatest value that the operand fields of a format pack to: every field all ones. -/
def maxOperands : List OperandField → Nat
  | [] => 0
  | f :: fs => (2 ^ f.kind.width - 1) * 2 ^ f.offset + maxOperands fs

/-- Each operand value is masked to its field's width, so it cannot pass the field's own ones. -/
theorem encodeOperands_le_maxOperands (fs : List OperandField) (vs : List Int) :
    encodeOperands fs vs ≤ maxOperands fs := by
  induction fs generalizing vs with
  | nil => exact Nat.zero_le _
  | cons f fs ih =>
    cases vs with
    | nil => exact Nat.zero_le _
    | cons v vs =>
      have hlt : v % 2 ^ f.kind.width < ((2 ^ f.kind.width : Nat) : Int) := by
        push_cast
        exact Int.emod_lt_of_pos v (by positivity)
      have hmask : (v % 2 ^ f.kind.width).toNat ≤ 2 ^ f.kind.width - 1 := by omega
      exact Nat.add_le_add (Nat.mul_le_mul_right _ hmask) (ih vs)

/-- The fields of every row of the table lie within bits 11 to 0 (R91, R93). -/
theorem encodeOperands_lt {d : Descriptor} (hd : d ∈ descriptors) (vs : List Int) :
    encodeOperands d.fields vs < 4096 := by
  have hmax : ∀ d ∈ descriptors, maxOperands d.fields < 4096 := by decide
  exact Nat.lt_of_le_of_lt (encodeOperands_le_maxOperands d.fields vs) (hmax d hd)

/-- The opcode of every row of the table fits in the 6-bit opcode field (R91, R101). -/
theorem toNat_ofNat_opcode {d : Descriptor} (hd : d ∈ descriptors) :
    (BitVec.ofNat 6 d.opcode).toNat = d.opcode := by
  have hfits : ∀ d ∈ descriptors, (BitVec.ofNat 6 d.opcode).toNat = d.opcode := by decide
  exact hfits d hd

theorem encodeDescriptor_eq_pack {d : Descriptor} (hd : d ∈ descriptors) (vs : List Int) :
    encodeDescriptor d vs = pack (BitVec.ofNat 6 d.opcode) (encodeOperands d.fields vs) := by
  rw [encodeDescriptor, pack, toNat_ofNat_opcode hd]

theorem toNat_encodeDescriptor {d : Descriptor} (hd : d ∈ descriptors) (vs : List Int) :
    (encodeDescriptor d vs).toNat = d.opcode * 4096 + encodeOperands d.fields vs := by
  rw [encodeDescriptor_eq_pack hd, toNat_pack _ _ (encodeOperands_lt hd vs), toNat_ofNat_opcode hd]

theorem toNat_opcodeOf_encodeDescriptor {d : Descriptor} (hd : d ∈ descriptors) (vs : List Int) :
    (opcodeOf (encodeDescriptor d vs)).toNat = d.opcode := by
  rw [encodeDescriptor_eq_pack hd, opcodeOf_pack _ _ (encodeOperands_lt hd vs), toNat_ofNat_opcode hd]

/-! ### The encoder writes each format as the table lays it out (R93)

In-range operands are unchanged by their field's mask; a signed address is stored mod 4096. -/

theorem encodeOperands_formatRR (rd rs : RegIx) :
    encodeOperands formatRR [rd.toNat, rs.toNat] = rd.toNat * 256 + rs.toNat * 16 := by
  have := rd.isLt; have := rs.isLt
  simp only [encodeOperands, OperandKind.width]
  omega

theorem encodeOperands_formatRI (rd : RegIx) (imm : Byte) :
    encodeOperands formatRI [rd.toNat, imm.toNat] = rd.toNat * 256 + imm.toNat := by
  have := rd.isLt; have := imm.isLt
  simp only [encodeOperands, OperandKind.width]
  omega

theorem encodeOperands_formatA (a : Addr) : encodeOperands formatA [a.toNat] = a.toNat := by
  have := a.isLt
  simp only [encodeOperands, OperandKind.width]
  omega

theorem encodeOperands_formatS (off : Int) :
    encodeOperands formatS [off] = (off % 4096).toNat := by
  simp only [encodeOperands, OperandKind.width]
  omega

/-- The encoder builds the word of the instruction's own row of the table, the row at its opcode (R95,
R101). -/
theorem encode_eq_encodeDescriptor (i : Instr) :
    ∃ d, descriptors[i.opcode]? = some d ∧ d.opcode = i.opcode ∧
      encode i = encodeDescriptor d i.operands := by
  cases i with
  | nop => exact ⟨_, rfl, rfl, rfl⟩
  | movRR rd rs | addRR rd rs | subRR rd rs | andRR rd rs | orRR rd rs | xorRR rd rs | shlRR rd rs
  | sarRR rd rs | ldRR rd rs | stRR rd rs =>
    exact ⟨_, rfl, rfl, congrArg (pack _) (encodeOperands_formatRR rd rs).symm⟩
  | movRI rd imm | addRI rd imm | subRI rd imm | andRI rd imm | orRI rd imm | xorRI rd imm
  | shlRI rd imm | sarRI rd imm | ldRI rd imm | stRI rd imm =>
    exact ⟨_, rfl, rfl, congrArg (pack _) (encodeOperands_formatRI rd imm).symm⟩
  | jmp a | jz a | jnz a =>
    exact ⟨_, rfl, rfl, congrArg (pack _) (encodeOperands_formatA a).symm⟩
  | br off | bz off | bnz off =>
    exact ⟨_, rfl, rfl, congrArg (pack _) (encodeOperands_formatS off).symm⟩

/-- Settles O5: the word is the one the instruction's row builds, and every row's word is its opcode over
operand fields that stay below bit 12. -/
theorem wordLayout : Obligations.WordLayout := by
  unfold Obligations.WordLayout
  intro i
  obtain ⟨d, hrow, hop, henc⟩ := encode_eq_encodeDescriptor i
  have hd : d ∈ descriptors := List.mem_of_getElem? hrow
  rw [henc, ← hop]
  exact ⟨d, hop ▸ hrow, rfl, encodeOperands_lt hd _, toNat_encodeDescriptor hd _,
    toNat_opcodeOf_encodeDescriptor hd _⟩

end Sys2Proof
end

section
/-! PROOFS. Undefined opcodes (spec/30_encoding.md R102): which words the decoder rejects, and what such a
word does in Execute. -/

namespace Sys2Proof.Machine

/-- The decoder rejects exactly the opcodes from 27 on, naming the opcode (R102). -/
theorem decode_eq_error_iff (w : Word) :
    decode w = .error (.noDescriptor (opcodeOf w)) ↔ 27 ≤ (opcodeOf w).toNat := by
  rcases decode_cases w with ⟨hlt, i, hok, -⟩ | ⟨hge, herr⟩
  · simp [hok, hlt]
  · simp [herr, hge]

/-- An unflushed word in Execute that does not decode stops the engine: the stall condition and the rest of
the state are not looked at (R102, R262). -/
theorem step_of_decode_error {s : State} {op : Opcode} (hfl : s.e.fl = false)
    (herr : decode s.e.ir = .error (.noDescriptor op)) : step s = .fault (.engineFault op) := by
  simp [step, hfl, herr, faultOfDecode, raiseEngineFault]

/-- Settles O7: by the decoder's reject rule, and the step on a word it rejects. -/
theorem undefinedOpcodesStopTheEngine : Obligations.UndefinedOpcodesStopTheEngine := by
  unfold Obligations.UndefinedOpcodesStopTheEngine
  exact ⟨fun w => (decode_eq_error_iff w).symm,
    fun s hfl hge => step_of_decode_error hfl ((decode_eq_error_iff s.e.ir).mpr hge)⟩

end Sys2Proof.Machine
end

section
/-! PROOFS. What Execute is given (spec/40_pipeline_engine.md sections 3 and 4): the control set the opcode
looks up, the values `inspect` shows, operand B, and what an inert slot leaves unchanged. -/

namespace Sys2Proof.Machine

/-! ### The opcode lookup -/

theorem controlTable_length : controlTable.length = 27 := rfl

/-- An unflushed word looks up the row its opcode numbers, and nothing else of the state (R142). -/
theorem lookupControl_eq_ok_iff {s : State} (hfl : s.e.fl = false) (k : Ctl) :
    lookupControl s = .ok k ↔ controlTable[(opcodeOf s.e.ir).toNat]? = some k := by
  rw [lookupControl, if_neg (by simp [hfl])]
  split
  case h_1 row hrow => simp [hrow]
  case h_2 hrow => simp [hrow]

theorem lookupControl_of_no_row {s : State} (hfl : s.e.fl = false)
    (hrow : controlTable[(opcodeOf s.e.ir).toNat]? = none) :
    lookupControl s = .error (.engineFault (opcodeOf s.e.ir)) := by
  simp [lookupControl, hfl, hrow]

/-- Settles O8: the table's 27 rows decide between the row and the fault; the lookup reads the flushed bit and
the opcode only. -/
theorem opcodeDispatch : Obligations.OpcodeDispatch := by
  unfold Obligations.OpcodeDispatch
  refine ⟨fun s hfl hlt => ?_, fun s t hfl hop => ?_, fun s hfl hge => ?_⟩
  · have hrow := List.getElem?_eq_getElem (controlTable_length ▸ hlt)
    exact ⟨_, hrow, (lookupControl_eq_ok_iff hfl _).mpr hrow⟩
  · simp only [lookupControl, hfl, hop]
  · have hrow := List.getElem?_eq_none (controlTable_length ▸ hge)
    exact ⟨lookupControl_of_no_row hfl hrow, undefinedOpcodesStopTheEngine.2 s hfl hge⟩

/-! ### The values shown -/

/-- The values shown are those of the looked-up control set over the fields of the word in Execute. -/
theorem inspect_eq_ok_iff (s : State) (c : Comb) :
    inspect s = .ok c ↔
      ∃ k, lookupControl s = .ok k ∧ evaluate k (operandsOfWord s.e.ir) s = c := by
  unfold inspect
  split
  case h_1 k hk => simp [hk]
  case h_2 r hr => simp [hr]

@[simp] theorem operandB_imm (s : State) (o : Operands) : operandB s .imm o = o.imm := rfl
@[simp] theorem operandB_reg (s : State) (o : Operands) : operandB s .reg o = regOperand s o.rb := rfl

/-- Settles O14: the two inputs of the operand B multiplexer. -/
theorem operandBRule : Obligations.OperandBRule := by
  unfold Obligations.OperandBRule
  intro s c hc
  obtain ⟨k, -, rfl⟩ := (inspect_eq_ok_iff s c).mp hc
  rw [evaluate_ctl, evaluate_eB, operandsOfWord]
  refine ⟨fun hsel => ?_, fun hsel => ?_⟩
  · rw [hsel, operandB_imm]
  · rw [hsel, operandB_reg, regOperand]

/-! ### An inert slot -/

theorem not_executesNow_of_flushed {s : State} (hfl : s.e.fl = true) : ¬ ExecutesNow s := by
  simp [ExecutesNow, hfl]

/-- A slot that does not execute is held by a stall, or it is flushed and none holds it. -/
theorem stalled_or_flushed {s : State} (h : ¬ ExecutesNow s) :
    Stalled s ∨ (s.e.fl = true ∧ ¬ Stalled s) := by
  by_cases hst : Stalled s
  · exact .inl hst
  · exact .inr ⟨by_contra fun hfl => h ⟨by simpa using hfl, hst⟩, hst⟩

/-- A slot that enters MemoryAccess inert enables no write and hands the flags on. -/
theorem EntersInert.writes_nothing {s t : State} {ra : RegIx} {bubble : Bool}
    (h : EntersInert s t ra bubble) :
    t.m.rwe = false ∧ t.m.mwe = false ∧ t.m.z = s.m.z ∧ t.m.c = s.m.c := by
  rw [EntersInert] at h
  simp [h]

/-- Without an executing transfer the program counter holds (R145) or counts on (R157). -/
theorem clockWith_pc_of_idle {s : State} (h : ¬ ExecutesNow s) (k : Ctl) (o : Operands) :
    (clockWith k o s).f.pc = s.f.pc ∨ (clockWith k o s).f.pc = s.f.pc + 1#12 := by
  rcases stalled_or_flushed h with hst | ⟨hfl, hst⟩
  · obtain ⟨-, -, hf⟩ := clockWith_stalled hst k o
    exact .inl (congrArg FetchRegs.pc hf)
  · obtain ⟨-, -, hpc⟩ := clockWith_flushed hfl hst k o
    exact .inr hpc

/-- Settles O11: the control set by whether the word executes, and the idle clock's frame. -/
theorem inertSlots : Obligations.InertSlots := by
  unfold Obligations.InertSlots
  refine ⟨fun s k c hk hc => ?_, fun s t hidle hstep => ?_⟩
  · obtain ⟨k', hk', rfl⟩ := (inspect_eq_ok_iff s c).mp hc
    obtain rfl : k = k' := Except.ok.inj (hk.symm.trans hk')
    exact ⟨fun hfl => effectiveCtl_inert (not_executesNow_of_flushed hfl) k,
      fun _ hst => effectiveCtl_inert (fun hx => hx.2 hst) k, fun hx => effectiveCtl_executes hx k⟩
  · obtain ⟨k, o, rfl⟩ := step_is_clock hstep
    obtain ⟨hdm, hm⟩ := clockWith_idle hidle k o
    obtain ⟨hrwe, hmwe, hz, hc⟩ := hm.writes_nothing
    exact ⟨hdm, hrwe, hmwe, hz, hc, clockWith_pc_of_idle hidle k o⟩

end Sys2Proof.Machine
end

section
/-! PROOFS. A taken transfer (spec/40_pipeline_engine.md R156 to R158, R164): when it is taken, the clock that
redirects, and the two bubbles behind it. -/

namespace Sys2Proof.Machine

/-! ### When a transfer is taken, and where to -/

/-- R156, on the latched zero flag. -/
theorem taken_iff (s : State) (k : Ctl) :
    taken s k = true ↔ k.br ≠ .none ∧ (k.cond = .always ∨ (k.cond = .z ∧ s.m.z = true) ∨
      (k.cond = .nz ∧ s.m.z = false)) := by
  rw [taken, Bool.and_eq_true, decide_eq_true_eq]
  cases hcond : k.cond <;> simp [condHolds]

/-- Only an executing word takes a transfer. -/
theorem executesNow_of_taken {s : State} {k : Ctl} (ht : taken s (effectiveCtl s k) = true) :
    ExecutesNow s := by
  by_contra hidle
  rw [effectiveCtl_inert hidle, taken_inert] at ht
  exact Bool.noConfusion ht

theorem transferTarget_of_br_ne_none (s : State) {k : Ctl} (o : Operands) (hbr : k.br ≠ .none) :
    ∃ target, transferTarget s k o = some target := by
  unfold transferTarget
  split
  case h_1 hnone => exact absurd hnone hbr
  case h_2 => exact ⟨_, rfl⟩
  case h_3 => exact ⟨_, rfl⟩

/-- No row of the control table both transfers and writes a register (R168). -/
theorem rwe_of_transfer_row : ∀ k ∈ controlTable, k.br ≠ .none → k.rwe = false := by decide

/-! ### The fields of a decoded transfer are the word's -/

/-- The 12 address bits hold all four fields of the extraction (R147). -/
theorem operandsA_fieldAddr (w : Word) : operandsA (fieldAddr w) = operandsOfWord w := by
  simp [operandsA, operandsOfWord, fieldAddr, fieldRd, fieldRs, fieldImm,
    BitVec.extractLsb'_extractLsb'_of_le]

/-- The stored field of a relative branch is its offset mod 4096 (R92), so decoding loses none of its bits. -/
theorem operandsS_fieldSigned (w : Word) : operandsS (fieldSigned w) = operandsOfWord w := by
  rw [operandsS, fieldSigned, BitVec.ofInt_toInt, operandsA_fieldAddr]

theorem instrOperands_of_transfer {s : State} {i : Instr} (hdec : decode s.e.ir = .ok i)
    (hbr : (controlTable.getD i.opcode .inert).br ≠ .none) :
    instrOperands s i = operandsOfWord s.e.ir := by
  have hop := (decode_opcode hdec).1.symm
  cases i with
  | jmp a | jz a | jnz a =>
    simp only [decode, hop, Instr.opcode] at hdec
    cases hdec
    exact operandsA_fieldAddr s.e.ir
  | br off | bz off | bnz off =>
    simp only [decode, hop, Instr.opcode] at hdec
    cases hdec
    exact operandsS_fieldSigned s.e.ir
  | _ => exact absurd rfl hbr

/-! ### The three clocks -/

/-- A word that looks up a transfer runs the clock of that row over the word's own fields. -/
theorem step_of_transfer {s : State} {k : Ctl} (hfl : s.e.fl = false) (hk : lookupControl s = .ok k)
    (hbr : k.br ≠ .none) : step s = .next (clockWith k (operandsOfWord s.e.ir) s) := by
  have hrow := (lookupControl_eq_ok_iff hfl k).mp hk
  rcases decode_cases s.e.ir with ⟨-, i, hdec, hop⟩ | ⟨hge, -⟩
  · have hki : controlTable.getD i.opcode .inert = k := by
      rw [hop, List.getD_eq_getElem?_getD, hrow, Option.getD_some]
    have hstep : step s = exec i s := by simp [step, hfl, hdec]
    rw [hstep, exec_eq_clockWith, instrOperands_of_transfer hdec (hki ▸ hbr), hki]
  · rw [List.getElem?_eq_none (controlTable_length ▸ hge)] at hrow
    cases hrow

/-- The clock of a taken transfer redirects to the target that `inspect` shows, and sends no register write to
MemoryAccess. -/
theorem step_of_taken {s : State} {k : Ctl} (hk : lookupControl s = .ok k)
    (ht : taken s (effectiveCtl s k) = true) :
    ∃ target t, transferTarget s (effectiveCtl s k) (operandsOfWord s.e.ir) = some target ∧
      step s = .next t ∧ Redirects s t target ∧ HostInputsKept s t ∧ t.m.rwe = false := by
  have hx := executesNow_of_taken ht
  rw [effectiveCtl_executes hx] at ht ⊢
  have hbr := ((taken_iff s k).mp ht).1
  have hrow := List.mem_of_getElem? ((lookupControl_eq_ok_iff hx.1 k).mp hk)
  obtain ⟨target, htgt⟩ := transferTarget_of_br_ne_none s (operandsOfWord s.e.ir) hbr
  refine ⟨target, _, htgt, step_of_transfer hx.1 hk hbr, (clockWith_front hx k _).2 target ht htgt,
    clockWith_inputs k _ s, ?_⟩
  rw [clockWith_m, effectiveCtl_executes hx]
  exact rwe_of_transfer_row k hrow hbr

theorem not_stalled_of_rwe_eq_false {s : State} (h : s.m.rwe = false) : ¬ Stalled s := by
  simp [Stalled, h]

/-- A bubble in Execute with no register write ahead of it: a plain clock, in which it moves on inert. -/
theorem step_of_bubble {s : State} (hfl : s.e.fl = true) (hrwe : s.m.rwe = false) :
    ∃ t, step s = .next t ∧ PlainClock s t ∧ EntersInert s t (fieldRd s.e.ir) true := by
  have hst := not_stalled_of_rwe_eq_false hrwe
  obtain ⟨hdm, hm⟩ := clockWith_idle (not_executesNow_of_flushed hfl) .inert (operandsOfWord s.e.ir)
  refine ⟨bubbleClock s, if_pos hfl, ⟨clockWith_older _ _ s, clockWith_inputs _ _ s,
    clockWith_flushed hfl hst _ _, fun a => ?_⟩, hm⟩
  rw [bubbleClock, hdm]

/-- Settles O29: the transfer's clock puts two bubbles behind it, each bubble takes one plain clock, and the
word fetched at the target in the first of these is in Execute after the second. -/
theorem takenTransferSquashesTwo : Obligations.TakenTransferSquashesTwo := by
  unfold Obligations.TakenTransferSquashesTwo
  intro s c hc
  obtain ⟨k, hk, rfl⟩ := (inspect_eq_ok_iff s c).mp hc
  have hflush : (evaluate k (operandsOfWord s.e.ir) s).fFlush = true ↔
      taken s (effectiveCtl s k) = true ∧ s.flushEn = true := by
    rw [evaluate_fFlush, Bool.and_eq_true]
  refine ⟨taken_iff s _, hflush, rfl, fun hsquash => ?_⟩
  obtain ⟨ht, hfe⟩ := hflush.mp hsquash
  obtain ⟨target, t, htgt, hs, ⟨hpc, hbubbles, -⟩, ⟨hprog, -⟩, htrwe⟩ := step_of_taken hk ht
  obtain ⟨hte, htd⟩ := hbubbles hfe
  obtain ⟨u, htu, ⟨-, -, ⟨hue, hud, -⟩, hudata⟩, hum⟩ := step_of_bubble (by rw [hte]) htrwe
  obtain ⟨hurwe, -, huz, huc⟩ := hum.writes_nothing
  obtain ⟨v, huv, ⟨-, -, ⟨hve, -, -⟩, hvdata⟩, hvm⟩ := step_of_bubble (by rw [hue, htd]) hurwe
  obtain ⟨hvrwe, -, hvz, hvc⟩ := hvm.writes_nothing
  have hvword : v.e = ⟨fetch s.program target, target, false⟩ := by rw [hve, hud, hpc, hprog]
  exact ⟨target, t, u, v, htgt, hs, htu, huv, hpc, hte, htd, hudata, hurwe, huz, huc, hvdata, hvrwe,
    hvz, hvc, hvword⟩

end Sys2Proof.Machine
end

section
/-! PROOFS. The instructions that write their ALU result (spec/41_alu_instructions.md R202 to R204): the clock
in which one executes, the write of `x[rd]` one clock later, and the sequential view of an addition. -/

namespace Sys2Proof.Machine

/-! ### The words of the two formats (R93, R95) -/

theorem toNat_packRR (op : Opcode) (rd rs : RegIx) :
    (packRR op rd rs).toNat = op.toNat * 4096 + rd.toNat * 256 + rs.toNat * 16 := by
  have := rd.isLt; have := rs.isLt
  rw [packRR, toNat_pack op _ (by omega), Nat.add_assoc]

theorem toNat_packRI (op : Opcode) (rd : RegIx) (imm : Byte) :
    (packRI op rd imm).toNat = op.toNat * 4096 + rd.toNat * 256 + imm.toNat := by
  have := rd.isLt; have := imm.isLt
  rw [packRI, toNat_pack op _ (by omega), Nat.add_assoc]

/-! ### The clock in which the result is computed, and the one that commits it -/

theorem flagsOut_add (s : State) (a b : Byte) :
    flagsOut s .add a b = ⟨decide (a + b = 0#8), addCarry a b⟩ := by
  rw [flagsOut, aluFlags_add]

/-- Every row of opcodes 1 to 16 (R168): a plain clock that hands the ALU result, and the flags leaving
Execute, to MemoryAccess. -/
theorem clockWith_compute {s : State} (h : ExecutesNow s) (op : AluOp) (sel : BSel) (o : Operands) :
    WritesResult s (clockWith (.compute op sel) o s) o.ra (operandA s o)
      (aluResult op (operandA s o) (operandB s sel o))
      (flagsOut s op (operandA s o) (operandB s sel o)).z
      (flagsOut s op (operandA s o) (operandB s sel o)).c := by
  have hk := effectiveCtl_executes h (.compute op sel)
  refine ⟨⟨clockWith_older _ o s, clockWith_inputs _ o s, (clockWith_front h _ o).1 rfl, fun a => ?_⟩, ?_⟩
  · rw [clockWith_dm, hk]
    rfl
  · have hs := (stallCondition_false_iff s).mpr h.2
    rw [clockWith_m, hk, h.1, hs]
    rfl

/-- What a slot with an enabled write of its ALU result holds in MemoryAccess is in `x[rd]` one clock later,
whatever that clock does (R133). -/
theorem WritesResult.committed {s t u : State} {rd : RegIx} {a v : Byte} {z c : Bool}
    (h : WritesResult s t rd a v z c) (hu : step t = .next u) : readReg u.x rd = v := by
  obtain ⟨k, o, rfl⟩ := step_is_clock hu
  rw [(clockWith_older k o t).1 rd]
  simp [h.2, writeBackValue]

/-- An executing instruction with a row of opcodes 1 to 16, from Execute to its commit. -/
theorem exec_compute {s : State} (h : ExecutesNow s) {i : Instr} {op : AluOp} {sel : BSel}
    (hrow : controlTable.getD i.opcode .inert = .compute op sel) {a b : Byte}
    (ha : operandA s (instrOperands s i) = a) (hb : operandB s sel (instrOperands s i) = b) :
    ∃ t, exec i s = .next t ∧
      WritesResult s t (instrOperands s i).ra a (aluResult op a b)
        (flagsOut s op a b).z (flagsOut s op a b).c ∧
      ∀ u, step t = .next u → readReg u.x (instrOperands s i).ra = aluResult op a b := by
  subst ha hb
  have hw := clockWith_compute h op sel (instrOperands s i)
  exact ⟨_, by rw [exec_eq_clockWith, hrow], hw, fun _ hu => hw.committed hu⟩

/-- An executing addition: the sum and both flags. -/
theorem exec_add {s : State} (h : ExecutesNow s) {i : Instr} {sel : BSel}
    (hrow : controlTable.getD i.opcode .inert = .compute .add sel) {a b : Byte}
    (ha : operandA s (instrOperands s i) = a) (hb : operandB s sel (instrOperands s i) = b) :
    ∃ t, exec i s = .next t ∧
      WritesResult s t (instrOperands s i).ra a (a + b) (decide (a + b = 0#8)) (addCarry a b) ∧
      ∀ u, step t = .next u → readReg u.x (instrOperands s i).ra = a + b := by
  have hx := exec_compute h hrow ha hb
  rwa [flagsOut_add, aluResult_add] at hx

/-! ### An addition in the sequential view -/

/-- Bit 8 of the unmasked sum is the carry: the sum is below 512 (R153, R203). -/
theorem testBit_sum_eq_addCarry (a b : Byte) : (a.toNat + b.toNat).testBit 8 = addCarry a b := by
  have := a.isLt; have := b.isLt
  rw [Nat.testBit_eq_decide_div_mod_eq, addCarry, decide_eq_decide]
  omega

/-- The masked sum is the 8-bit addition, so both views of `add` agree. -/
theorem SeqState.addTo_eq (q : SeqState) (rd : RegIx) (b : Byte) :
    q.addTo rd b = q.putFlags rd (readReg q.x rd + b) (addCarry (readReg q.x rd) b) := by
  have hsum : BitVec.ofNat 8 (((readReg q.x rd).toNat + b.toNat) % 256) = readReg q.x rd + b := by
    apply BitVec.eq_of_toNat_eq
    simp
  rw [SeqState.addTo, hsum, testBit_sum_eq_addCarry]

@[simp] theorem SeqState.readReg_addTo (q : SeqState) (rd : RegIx) (b : Byte) :
    readReg (q.addTo rd b).x rd = readReg q.x rd + b := by
  rw [SeqState.addTo_eq]
  exact readReg_writeReg_same _ _ _

@[simp] theorem SeqState.addTo_z (q : SeqState) (rd : RegIx) (b : Byte) :
    (q.addTo rd b).z = decide (readReg q.x rd + b = 0#8) := by
  rw [SeqState.addTo_eq, SeqState.putFlags]

@[simp] theorem SeqState.addTo_c (q : SeqState) (rd : RegIx) (b : Byte) :
    (q.addTo rd b).c = addCarry (readReg q.x rd) b := by
  rw [SeqState.addTo_eq, SeqState.putFlags]

/-- Adding a cell to itself doubles it (R203). -/
theorem add_self_eq (a : Byte) : a + a = BitVec.ofNat 8 (2 * a.toNat) := by
  apply BitVec.eq_of_toNat_eq
  rw [BitVec.toNat_add, BitVec.toNat_ofNat, Nat.two_mul]

/-- Adding 255 carries out of every cell but 0 (R204). -/
theorem addCarry_255 (a : Byte) : addCarry a 255#8 = decide (a ≠ 0#8) := by
  rw [addCarry, decide_eq_decide]
  bv_omega

theorem addCarry_zero (a : Byte) : addCarry a 0#8 = false := by
  have := a.isLt
  simp only [addCarry, BitVec.toNat_ofNat, decide_eq_false_iff_not]
  omega

/-! ### The three rules -/

/-- Settles O18: a row that passes operand B, which is the immediate, and sets no flags. -/
theorem moveImmediateRule : Obligations.MoveImmediateRule := by
  unfold Obligations.MoveImmediateRule
  refine ⟨toNat_packRI 2#6, rfl, fun s rd imm h => ?_, fun q rd imm => rfl, by decide⟩
  exact exec_compute h (i := .movRI rd imm) rfl rfl rfl

/-- Settles O19: a row that adds the register operand; the sequential view by `SeqState.addTo_eq`. -/
theorem addRegisterRule : Obligations.AddRegisterRule := by
  unfold Obligations.AddRegisterRule
  refine ⟨toNat_packRR 3#6, rfl, fun s rd rs h => ?_, fun q rd rs a b ha hb => ?_, fun q rd => ?_,
    by decide⟩
  · exact exec_add h (i := .addRR rd rs) rfl rfl rfl
  · subst ha hb
    exact q.addTo_eq rd _
  · exact (q.readReg_addTo rd _).trans (add_self_eq _)

/-- Settles O20: a row that adds the immediate; the corners are the sums and carries with 255 and 0. -/
theorem addImmediateRule : Obligations.AddImmediateRule := by
  unfold Obligations.AddImmediateRule
  refine ⟨toNat_packRI 4#6, rfl, fun s rd imm h => ?_, fun q rd imm a ha => ?_, fun q rd a ha => ?_,
    by decide⟩
  · exact exec_add h (i := .addRI rd imm) rfl rfl rfl
  · subst ha
    exact q.addTo_eq rd imm
  · subst ha
    exact ⟨(q.readReg_addTo rd _).trans (by bv_omega), (q.addTo_c rd _).trans (addCarry_255 _),
      (q.readReg_addTo rd _).trans (BitVec.add_zero _), (q.addTo_z rd _).trans (by rw [BitVec.add_zero]),
      (q.addTo_c rd _).trans (addCarry_zero _)⟩

end Sys2Proof.Machine
end

section
/-! PROOFS. The round trips of the encoding (spec/30_encoding.md sections 1 to 3): a word is packed back from its
fields, and each format's operands survive packing. -/

namespace Sys2Proof.Machine

/-! ### Decoding what the encoder writes -/

/-- Settles O1: each word is looked up by its opcode. -/
theorem specWordsDecode : Obligations.SpecWordsDecode := by
  unfold Obligations.SpecWordsDecode
  decide

/-- Settles O2: by format. The opcode field of a packed word selects the instruction's own row, and each
operand field reads back what was packed; a signed offset needs its range. -/
theorem decodeOfEncode : Obligations.DecodeOfEncode := by
  unfold Obligations.DecodeOfEncode
  intro i hwf
  cases i with
  | nop => rfl
  | movRR rd rs | addRR rd rs | subRR rd rs | andRR rd rs | orRR rd rs | xorRR rd rs | shlRR rd rs
  | sarRR rd rs | ldRR rd rs | stRR rd rs =>
    simp only [encode, decode, opcodeOf_packRR, fieldRd_packRR, fieldRs_packRR, BitVec.reduceToNat]
  | movRI rd imm | addRI rd imm | subRI rd imm | andRI rd imm | orRI rd imm | xorRI rd imm
  | shlRI rd imm | sarRI rd imm | ldRI rd imm | stRI rd imm =>
    simp only [encode, decode, opcodeOf_packRI, fieldRd_packRI, fieldImm_packRI, BitVec.reduceToNat]
  | jmp a | jz a | jnz a =>
    simp only [encode, decode, opcodeOf_packA, fieldAddr_packA, BitVec.reduceToNat]
  | br off | bz off | bnz off =>
    simp only [encode, decode, opcodeOf_packS, fieldSigned_packS _ _ hwf, BitVec.reduceToNat]

/-! ### A word is packed back from its fields -/

theorem toNat_fieldAddr (w : Word) : (fieldAddr w).toNat = w.toNat % 4096 := by
  simp [fieldAddr, BitVec.extractLsb'_toNat]

/-- The 12 operand bits are the two halves of format `RI`. -/
theorem toNat_fieldAddr_RI (w : Word) :
    (fieldAddr w).toNat = (fieldRd w).toNat * 256 + (fieldImm w).toNat := by
  simp only [fieldAddr, fieldRd, fieldImm, BitVec.extractLsb'_toNat, Nat.shiftRight_eq_div_pow]
  omega

/-- The 12 operand bits are the two registers of format `RR` over its four unused bits. -/
theorem toNat_fieldAddr_RR (w : Word) :
    (fieldAddr w).toNat =
      (fieldRd w).toNat * 256 + (fieldRs w).toNat * 16 + (w.extractLsb' 0 4).toNat := by
  simp only [fieldAddr, fieldRd, fieldRs, BitVec.extractLsb'_toNat, Nat.shiftRight_eq_div_pow]
  omega

/-- A word is its opcode over its 12 operand bits (R91). -/
theorem pack_fieldAddr (w : Word) : pack (opcodeOf w) (fieldAddr w).toNat = w := by
  apply BitVec.eq_of_toNat_eq
  have := w.isLt
  rw [toNat_pack _ _ (fieldAddr w).isLt, toNat_fieldAddr, opcodeOf, BitVec.extractLsb'_toNat,
    Nat.shiftRight_eq_div_pow]
  omega

theorem packN_of_opcode {w : Word} {op : Opcode} (hop : op = opcodeOf w) (hlow : fieldAddr w = 0#12) :
    packN op = w := by
  have h := pack_fieldAddr w
  rwa [hlow, ← hop, BitVec.toNat_ofNat, Nat.zero_mod] at h

theorem packRR_of_opcode {w : Word} {op : Opcode} (hop : op = opcodeOf w)
    (hlow : w.extractLsb' 0 4 = 0#4) : packRR op (fieldRd w) (fieldRs w) = w := by
  have h := pack_fieldAddr w
  rwa [toNat_fieldAddr_RR, hlow, ← hop, BitVec.toNat_ofNat, Nat.zero_mod, Nat.add_zero] at h

theorem packRI_of_opcode {w : Word} {op : Opcode} (hop : op = opcodeOf w) :
    packRI op (fieldRd w) (fieldImm w) = w := by
  rw [packRI, ← toNat_fieldAddr_RI, hop, pack_fieldAddr]

theorem packA_of_opcode {w : Word} {op : Opcode} (hop : op = opcodeOf w) :
    packA op (fieldAddr w) = w := by
  rw [packA, hop, pack_fieldAddr]

theorem packS_of_opcode {w : Word} {op : Opcode} (hop : op = opcodeOf w) :
    packS op (fieldSigned w) = w := by
  have hstored : (fieldSigned w % 4096).toNat = (fieldAddr w).toNat := by
    have := (fieldAddr w).isLt
    rw [fieldSigned, BitVec.toInt_eq_toNat_cond]
    omega
  rw [packS, hstored, hop, pack_fieldAddr]

/-- The unused bits are the 12 of `nop` and the low 4 of format `RR` (R100). -/
theorem canonicalWord_iff (w : Word) :
    canonicalWord w = true ↔ ((opcodeOf w).toNat = 0 → fieldAddr w = 0#12) ∧
      ((opcodeOf w).toNat ∈ opcodesRR → w.extractLsb' 0 4 = 0#4) := by
  simp only [canonicalWord, fieldAddr, Bool.and_eq_true, Bool.or_eq_true, decide_eq_true_eq]
  tauto

/-- Settles O3: the decoded instruction holds the word's own fields, and packing them gives the word, in `nop`
and format `RR` because the unused bits are 0. -/
theorem encodeOfDecodeOnCanonicalWords : Obligations.EncodeOfDecodeOnCanonicalWords := by
  unfold Obligations.EncodeOfDecodeOnCanonicalWords
  intro w i hdec hcanon
  obtain ⟨hN, hRR⟩ := (canonicalWord_iff w).mp hcanon
  have hop := (decode_opcode hdec).1.symm
  cases i with
  | nop => exact packN_of_opcode (BitVec.eq_of_toNat_eq hop.symm) (hN hop)
  | movRR rd rs | addRR rd rs | subRR rd rs | andRR rd rs | orRR rd rs | xorRR rd rs | shlRR rd rs
  | sarRR rd rs | ldRR rd rs | stRR rd rs =>
    simp only [decode, hop, Instr.opcode] at hdec
    cases hdec
    exact packRR_of_opcode (BitVec.eq_of_toNat_eq hop.symm)
      (hRR (by simp [hop, Instr.opcode, opcodesRR]))
  | movRI rd imm | addRI rd imm | subRI rd imm | andRI rd imm | orRI rd imm | xorRI rd imm
  | shlRI rd imm | sarRI rd imm | ldRI rd imm | stRI rd imm =>
    simp only [decode, hop, Instr.opcode] at hdec
    cases hdec
    exact packRI_of_opcode (BitVec.eq_of_toNat_eq hop.symm)
  | jmp a | jz a | jnz a =>
    simp only [decode, hop, Instr.opcode] at hdec
    cases hdec
    exact packA_of_opcode (BitVec.eq_of_toNat_eq hop.symm)
  | br off | bz off | bnz off =>
    simp only [decode, hop, Instr.opcode] at hdec
    cases hdec
    exact packS_of_opcode (BitVec.eq_of_toNat_eq hop.symm)

/-! ### Which bits a decoding reads -/

/-- A word of format `RR` decodes by its opcode and its two register fields. -/
theorem decode_congr_RR {v w : Word} (hop : opcodeOf v = opcodeOf w)
    (hmem : (opcodeOf w).toNat ∈ opcodesRR) (hrd : fieldRd v = fieldRd w)
    (hrs : fieldRs v = fieldRs w) : decode v = decode w := by
  simp only [opcodesRR, List.mem_cons, List.not_mem_nil, or_false] at hmem
  rcases hmem with h | h | h | h | h | h | h | h | h | h <;>
    simp only [decode, hop, h, hrd, hrs]

/-- Every field a decoding reads is among the opcode and the 12 operand bits. -/
theorem decode_congr {v w : Word} (hop : opcodeOf v = opcodeOf w)
    (hlow : fieldAddr v = fieldAddr w) : decode v = decode w := by
  have hvw : v = w := by rw [← pack_fieldAddr v, ← pack_fieldAddr w, hop, hlow]
  rw [hvw]

/-- Settles O6: `nop` reads no operand bit, format `RR` two fields, the other formats all 12 bits. -/
theorem unusedBitsAreIgnored : Obligations.UnusedBitsAreIgnored := by
  unfold Obligations.UnusedBitsAreIgnored
  intro v w hop hRR hrest
  by_cases hnop : (opcodeOf w).toNat = 0
  · simp only [decode, hop, hnop]
  · by_cases hmem : (opcodeOf w).toNat ∈ opcodesRR
    · exact decode_congr_RR hop hmem (hRR hmem).1 (hRR hmem).2
    · exact decode_congr hop (hrest hnop hmem)

/-! ### From a descriptor and its operands to the instruction -/

/-- The values a register field takes are the 4-bit indices (R92). -/
theorem exists_regIx {v : Int} (h : OperandKind.register.inRange v = true) :
    ∃ r : RegIx, v = r.toNat := by
  simp only [OperandKind.inRange, Bool.and_eq_true, decide_eq_true_eq] at h
  exact ⟨BitVec.ofNat 4 v.toNat, by rw [BitVec.toNat_ofNat]; omega⟩

theorem exists_byte {v : Int} (h : OperandKind.immediate.inRange v = true) :
    ∃ b : Byte, v = b.toNat := by
  simp only [OperandKind.inRange, Bool.and_eq_true, decide_eq_true_eq] at h
  exact ⟨BitVec.ofNat 8 v.toNat, by rw [BitVec.toNat_ofNat]; omega⟩

theorem exists_addr {v : Int} (h : OperandKind.unsignedAddress.inRange v = true) :
    ∃ a : Addr, v = a.toNat := by
  simp only [OperandKind.inRange, Bool.and_eq_true, decide_eq_true_eq] at h
  exact ⟨BitVec.ofNat 12 v.toNat, by rw [BitVec.toNat_ofNat]; omega⟩

/-- One value per field: a list for one field is that field's value. -/
theorem operandsInRange_one {f : OperandField} {vs : List Int} (h : operandsInRange [f] vs = true) :
    ∃ v, vs = [v] ∧ f.kind.inRange v = true := by
  match vs with
  | [] => cases h
  | [v] => exact ⟨v, rfl, by simpa [operandsInRange] using h⟩
  | v :: _ :: _ => simp [operandsInRange] at h

theorem operandsInRange_two {f g : OperandField} {vs : List Int}
    (h : operandsInRange [f, g] vs = true) :
    ∃ v u, vs = [v, u] ∧ f.kind.inRange v = true ∧ g.kind.inRange u = true := by
  match vs with
  | [] => cases h
  | [v] => simp [operandsInRange] at h
  | [v, u] => exact ⟨v, u, rfl, by simpa [operandsInRange] using h⟩
  | v :: u :: _ :: _ => simp [operandsInRange] at h

section
variable {d : Descriptor} (hd : d ∈ descriptors) {vs : List Int}
  (hvs : operandsInRange d.fields vs = true)
include hd hvs

/-- Format `RR`: the two register fields of the built word hold the operands. -/
theorem fields_encodeDescriptor_RR (hf : d.fields = formatRR) :
    [((fieldRd (encodeDescriptor d vs)).toNat : Int), ((fieldRs (encodeDescriptor d vs)).toNat : Int)]
      = vs := by
  rw [hf] at hvs
  obtain ⟨v, u, rfl, hv, hu⟩ := operandsInRange_two hvs
  obtain ⟨rd, rfl⟩ := exists_regIx hv
  obtain ⟨rs, rfl⟩ := exists_regIx hu
  rw [encodeDescriptor_eq_pack hd, hf, encodeOperands_formatRR, ← packRR, fieldRd_packRR,
    fieldRs_packRR]

theorem fields_encodeDescriptor_RI (hf : d.fields = formatRI) :
    [((fieldRd (encodeDescriptor d vs)).toNat : Int), ((fieldImm (encodeDescriptor d vs)).toNat : Int)]
      = vs := by
  rw [hf] at hvs
  obtain ⟨v, u, rfl, hv, hu⟩ := operandsInRange_two hvs
  obtain ⟨rd, rfl⟩ := exists_regIx hv
  obtain ⟨imm, rfl⟩ := exists_byte hu
  rw [encodeDescriptor_eq_pack hd, hf, encodeOperands_formatRI, ← packRI, fieldRd_packRI,
    fieldImm_packRI]

theorem fields_encodeDescriptor_A (hf : d.fields = formatA) :
    [((fieldAddr (encodeDescriptor d vs)).toNat : Int)] = vs := by
  rw [hf] at hvs
  obtain ⟨v, rfl, hv⟩ := operandsInRange_one hvs
  obtain ⟨a, rfl⟩ := exists_addr hv
  rw [encodeDescriptor_eq_pack hd, hf, encodeOperands_formatA, ← packA, fieldAddr_packA]

theorem fields_encodeDescriptor_S (hf : d.fields = formatS) :
    [fieldSigned (encodeDescriptor d vs)] = vs := by
  rw [hf] at hvs
  obtain ⟨v, rfl, hv⟩ := operandsInRange_one hvs
  rw [encodeDescriptor_eq_pack hd, hf, encodeOperands_formatS, ← packS, fieldSigned_packS _ _ hv]

end

/-- Every row of the table stands at its opcode (R101). -/
theorem getElem?_descriptors : ∀ d ∈ descriptors, descriptors[d.opcode]? = some d := by decide

theorem opcode_lt : ∀ d ∈ descriptors, d.opcode < 27 := by decide

/-- An instruction decoded from the word of a row has the row's fields as its operands. -/
theorem operands_of_decode_encodeDescriptor {d : Descriptor} (hd : d ∈ descriptors) {vs : List Int}
    (hvs : operandsInRange d.fields vs = true) {i : Instr}
    (hdec : decode (encodeDescriptor d vs) = .ok i) : i.operands = vs := by
  have hop := (decode_opcode hdec).1.symm
  have hrow := getElem?_descriptors d hd
  rw [← toNat_opcodeOf_encodeDescriptor hd vs, hop] at hrow
  cases i with
  | nop =>
    cases hrow
    match vs, hvs with
    | [], _ => rfl
  | movRR rd rs | addRR rd rs | subRR rd rs | andRR rd rs | orRR rd rs | xorRR rd rs | shlRR rd rs
  | sarRR rd rs | ldRR rd rs | stRR rd rs =>
    simp only [decode, hop, Instr.opcode] at hdec
    cases hdec
    exact fields_encodeDescriptor_RR hd hvs (by cases hrow; rfl)
  | movRI rd imm | addRI rd imm | subRI rd imm | andRI rd imm | orRI rd imm | xorRI rd imm
  | shlRI rd imm | sarRI rd imm | ldRI rd imm | stRI rd imm =>
    simp only [decode, hop, Instr.opcode] at hdec
    cases hdec
    exact fields_encodeDescriptor_RI hd hvs (by cases hrow; rfl)
  | jmp a | jz a | jnz a =>
    simp only [decode, hop, Instr.opcode] at hdec
    cases hdec
    exact fields_encodeDescriptor_A hd hvs (by cases hrow; rfl)
  | br off | bz off | bnz off =>
    simp only [decode, hop, Instr.opcode] at hdec
    cases hdec
    exact fields_encodeDescriptor_S hd hvs (by cases hrow; rfl)

/-- Settles O4: the built word has the row's opcode, which is below 27, so it decodes; and its fields hold the
operands. -/
theorem descriptorRoundTrip : Obligations.DescriptorRoundTrip := by
  unfold Obligations.DescriptorRoundTrip
  intro d hd vs hvs
  have hopw := toNat_opcodeOf_encodeDescriptor hd vs
  have hdefined := opcode_lt d hd
  rcases decode_cases (encodeDescriptor d vs) with ⟨-, i, hdec, hop⟩ | ⟨hge, -⟩
  · exact ⟨i, hdec, hop.trans hopw, operands_of_decode_encodeDescriptor hd hvs hdec, decode_wf hdec⟩
  · omega

end Sys2Proof.Machine
end

section
/-! PROOFS. The step in the spec's other words (spec/40_pipeline_engine.md sections 1 and 7): it latches what the
opcode lookup and the word's own fields evaluate to, and so it is the listing of the whole clock. -/

namespace Sys2Proof.Machine

/-! ### The step runs the decoded instruction -/

/-- Settles O9: an unflushed word is decoded and run. -/
theorem stepRunsTheDecodedInstruction : Obligations.StepRunsTheDecodedInstruction := by
  unfold Obligations.StepRunsTheDecodedInstruction
  intro s i hfl hdec
  simp only [step, hfl, Bool.false_eq_true, if_false, hdec]

/-- A number that the table window reads is an 18-bit word, and it decodes to that instruction. -/
theorem decode_of_decodeTableWord {nbits w : Nat} {i : Instr} (h : decodeTableWord nbits w = some i) :
    decode (BitVec.ofNat 18 (w % 2 ^ nbits)) = .ok i := by
  rw [decodeTableWord] at h
  split at h
  case isTrue =>
    split at h
    case h_1 j hj =>
      cases h
      exact hj
    case h_2 => cases h
  case isFalse => cases h

/-- Settles O10: the placed word executes, and the step runs what it decodes to. -/
theorem placedWordRunsNext : Obligations.PlacedWordRunsNext := by
  unfold Obligations.PlacedWordRunsNext
  intro s nbits w i hi
  obtain ⟨hword, hexec⟩ := withFetchWord_executes s nbits w
  refine ⟨hexec, stepRunsTheDecodedInstruction _ i hexec.1 ?_⟩
  rw [hword]
  exact decode_of_decodeTableWord hi

/-! ### The next state, field by field -/

/-- One clock, written out: the latches of R132 to R139 over the values of phases 2 and 3. -/
theorem clockWith_eq (k : Ctl) (o : Operands) (s : State) :
    clockWith k o s =
      { x := settledRegs s
        dm := if (effectiveCtl s k).mwe = true then
            writeCell s.dm (evaluate k o s).eRes (operandA s o) else s.dm
        f := if (!stallCondition s) = true then ⟨nextPc s (effectiveCtl s k) o⟩ else s.f
        d := if (!stallCondition s) = true then
            (if (taken s (effectiveCtl s k) && s.flushEn) = true then ⟨0#18, s.f.pc, true⟩
              else ⟨fetch s.program s.f.pc, s.f.pc, false⟩)
          else s.d
        e := if (!stallCondition s) = true then
            (if (taken s (effectiveCtl s k) && s.flushEn) = true then ⟨0#18, s.d.pc, true⟩ else s.d)
          else s.e
        m := ⟨(evaluate k o s).eRes, operandA s o, (evaluate k o s).eFlags.z, (evaluate k o s).eFlags.c,
          o.ra, (effectiveCtl s k).rwe, (effectiveCtl s k).wsel, (effectiveCtl s k).mwe, s.e.pc,
          s.e.fl || stallCondition s⟩
        w := ⟨writeBackValue s, s.m.rd, s.m.rwe, s.m.wsel, s.m.pc, s.m.fl⟩
        cycle := s.cycle + 1
        program := s.program
        fwdEn := s.fwdEn
        flushEn := s.flushEn
        stallEn := s.stallEn } := rfl

/-! ### The clock reads the word's own fields -/

/-- With a control set that takes operand B from a register and transfers nowhere, a clock reads the two
register fields only. -/
theorem clockWith_congr_of_registers {k : Ctl} {o p : Operands} (s : State) (hsel : k.bSel = .reg)
    (hbr : k.br = .none) (hra : o.ra = p.ra) (hrb : o.rb = p.rb) :
    clockWith k o s = clockWith k p s := by
  have heff : (effectiveCtl s k).bSel = .reg ∧ (effectiveCtl s k).br = .none := by
    by_cases hx : ExecutesNow s
    · rw [effectiveCtl_executes hx]
      exact ⟨hsel, hbr⟩
    · rw [effectiveCtl_inert hx]
      exact ⟨rfl, rfl⟩
  obtain ⟨hsel', hbr'⟩ := heff
  have hA : operandA s o = operandA s p := by rw [operandA, operandA, hra]
  have hB : operandB s .reg o = operandB s .reg p := by rw [operandB_reg, operandB_reg, hrb]
  have hpc : nextPc s (effectiveCtl s k) o = nextPc s (effectiveCtl s k) p := by
    simp only [nextPc, transferTarget, hbr']
  simp only [clockWith_eq, evaluate_eRes, evaluate_eFlags, hsel', hA, hB, hpc, hra]

/-- Format `RI` loses no operand bit: its fields are the word's. -/
theorem operandsRI_of_word (w : Word) : operandsRI (fieldRd w) (fieldImm w) = operandsOfWord w := by
  have hlow : BitVec.ofNat 12 ((fieldRd w).toNat * 256 + (fieldImm w).toNat) = fieldAddr w := by
    rw [← toNat_fieldAddr_RI, BitVec.ofNat_toNat, BitVec.setWidth_eq]
  have hrb : (fieldImm w).extractLsb' 4 4 = fieldRs w := by
    simp [fieldImm, fieldRs, BitVec.extractLsb'_extractLsb'_of_le]
  rw [operandsRI, hlow, hrb, operandsOfWord]

/-- A decoded instruction's clock is the clock of the word's own fields (R147): what a format drops, its row
does not read. -/
theorem clockWith_instrOperands {s : State} {i : Instr} (hdec : decode s.e.ir = .ok i) :
    clockWith (controlTable.getD i.opcode .inert) (instrOperands s i) s =
      clockWith (controlTable.getD i.opcode .inert) (operandsOfWord s.e.ir) s := by
  have hop := (decode_opcode hdec).1.symm
  cases i with
  | nop => rfl
  | movRR rd rs | addRR rd rs | subRR rd rs | andRR rd rs | orRR rd rs | xorRR rd rs | shlRR rd rs
  | sarRR rd rs | ldRR rd rs | stRR rd rs =>
    simp only [decode, hop, Instr.opcode] at hdec
    cases hdec
    exact clockWith_congr_of_registers s rfl rfl rfl rfl
  | movRI rd imm | addRI rd imm | subRI rd imm | andRI rd imm | orRI rd imm | xorRI rd imm
  | shlRI rd imm | sarRI rd imm | ldRI rd imm | stRI rd imm =>
    simp only [decode, hop, Instr.opcode] at hdec
    cases hdec
    exact congrArg (clockWith _ · s) (operandsRI_of_word s.e.ir)
  | jmp a | jz a | jnz a | br off | bz off | bnz off =>
    rw [instrOperands_of_transfer hdec (by simp [Instr.opcode, controlTable])]

/-! ### The step latches what the lookup evaluates to -/

/-- A step is the clock of the looked-up control set over the word's fields (R131, R142, R143). -/
theorem step_of_lookup {s : State} {k : Ctl} (hk : lookupControl s = .ok k) :
    step s = .next (clockWith k (operandsOfWord s.e.ir) s) := by
  by_cases hfl : s.e.fl = true
  · simp only [lookupControl, hfl, if_true] at hk
    cases hk
    exact if_pos hfl
  · have hfl' : s.e.fl = false := by simpa using hfl
    have hrow := (lookupControl_eq_ok_iff hfl' k).mp hk
    rcases decode_cases s.e.ir with ⟨-, i, hdec, hop⟩ | ⟨hge, -⟩
    · have hki : controlTable.getD i.opcode .inert = k := by
        rw [hop, List.getD_eq_getElem?_getD, hrow, Option.getD_some]
      rw [stepRunsTheDecodedInstruction s i hfl' hdec, exec_eq_clockWith,
        clockWith_instrOperands hdec, hki]
    · rw [List.getElem?_eq_none (controlTable_length ▸ hge)] at hrow
      cases hrow

/-- The lookup fails on an unflushed word without a row, and only there. -/
theorem lookupControl_eq_error_iff (s : State) (r : Fault) :
    lookupControl s = .error r ↔
      s.e.fl = false ∧ 27 ≤ (opcodeOf s.e.ir).toNat ∧ r = .engineFault (opcodeOf s.e.ir) := by
  by_cases hfl : s.e.fl = true
  · simp [lookupControl, hfl]
  · have hfl' : s.e.fl = false := by simpa using hfl
    by_cases hge : 27 ≤ (opcodeOf s.e.ir).toNat
    · rw [(opcodeDispatch.2.2 s hfl' hge).1]
      simp [hfl', hge, eq_comm]
    · obtain ⟨k, -, hk⟩ := opcodeDispatch.1 s hfl' (by omega)
      simp [hk, hge]

theorem step_of_lookup_error {s : State} {r : Fault} (hr : lookupControl s = .error r) :
    step s = .fault r := by
  obtain ⟨hfl, hge, rfl⟩ := (lookupControl_eq_error_iff s r).mp hr
  exact (opcodeDispatch.2.2 s hfl hge).2

/-- What a step that answers a next state did, in the words of the lookup. -/
theorem lookup_of_step {s t : State} (h : step s = .next t) :
    ∃ k, lookupControl s = .ok k ∧ t = clockWith k (operandsOfWord s.e.ir) s := by
  cases hk : lookupControl s with
  | ok k =>
    rw [step_of_lookup hk] at h
    cases h
    exact ⟨k, rfl, rfl⟩
  | error r =>
    rw [step_of_lookup_error hk] at h
    cases h

/-- Settles O13: `inspect` evaluates the looked-up control set over the word's fields, which is what the step
latches; both stop where the lookup does. -/
theorem stepLatchesWhatInspectShows : Obligations.StepLatchesWhatInspectShows := by
  unfold Obligations.StepLatchesWhatInspectShows
  refine fun s => ⟨fun c hc => ?_, fun r hr => ?_⟩
  · obtain ⟨k, hk, rfl⟩ := (inspect_eq_ok_iff s c).mp hc
    exact step_of_lookup hk
  · rw [inspect] at hr
    split at hr
    case h_1 => cases hr
    case h_2 r' hr' =>
      cases hr
      exact step_of_lookup_error hr'

/-- Settles O15: each value is `evaluate`'s; the raw flags are there exactly when the operation writes flags. -/
theorem inspectionShowsRawAndForwardedValues : Obligations.InspectionShowsRawAndForwardedValues := by
  unfold Obligations.InspectionShowsRawAndForwardedValues
  intro s c hc
  obtain ⟨k, hk, rfl⟩ := (inspect_eq_ok_iff s c).mp hc
  refine ⟨rfl, fun hfl => ⟨k, (lookupControl_eq_ok_iff hfl k).mp hk, hk⟩, rfl, rfl, rfl,
    fun hsel => ?_, rfl, rfl, fun hfwe => ?_, fun hfwe => ?_⟩
  · rw [evaluate_ctl] at hsel
    rw [evaluate_eB, hsel]
    rfl
  · rw [evaluate_eFwe, flagWriteEnable_iff, Option.isSome_iff_exists] at hfwe
    obtain ⟨fl, hfl⟩ := hfwe
    rw [evaluate_aluZC, evaluate_eFlags, flagsOut, hfl]
  · rw [evaluate_eFwe, flagWriteEnable_iff, Option.isSome_eq_false_iff, Option.isNone_iff_eq_none]
      at hfwe
    rw [evaluate_aluZC, evaluate_eFlags, flagsOut, hfwe]
    exact ⟨rfl, rfl⟩

/-! ### The listing -/

/-- The listing's fetch: the program's word inside it, 0 at or beyond its end (R63). -/
theorem fetch_eq_listing (p : List Word) (a : Addr) :
    (if a.toNat < p.length then p.getD a.toNat 0#18 else 0#18) = fetch p a := by
  split
  case isTrue => rfl
  case isFalse h => exact (fetch_outside p a (by omega)).symm

theorem flagsOut_eq_getD (s : State) (op : AluOp) (a b : Byte) :
    flagsOut s op a b = (aluFlags op a b).getD ⟨s.m.z, s.m.c⟩ := by
  rw [flagsOut]
  cases aluFlags op a b <;> rfl

theorem taken_eq_decide (s : State) (k : Ctl) :
    taken s k = decide (k.br ≠ .none ∧ (k.cond = .always ∨ (k.cond = .z ∧ s.m.z = true) ∨
      (k.cond = .nz ∧ s.m.z = false))) := by
  rw [Bool.eq_iff_iff, taken_iff, decide_eq_true_eq]

/-- A word of `w` bits does not tell integers apart that differ by a multiple of `2 ^ w`. -/
theorem ofInt_emod (w : Nat) (n : Int) : BitVec.ofInt w (n % 2 ^ w) = BitVec.ofInt w n := by
  apply BitVec.eq_of_toNat_eq
  simp

/-- The listing's target and next address: a target is used only where there is a transfer. -/
theorem nextPc_eq_listing (s : State) (k : Ctl) (o : Operands) :
    nextPc s k o =
      if taken s k = true then
        (if k.br = .abs then o.a12
          else BitVec.ofInt 12 (((s.e.pc.toNat : Int) + o.a12.toInt) % 4096))
      else BitVec.ofNat 12 ((s.f.pc.toNat + 1) % 4096) := by
  have hsucc : BitVec.ofNat 12 ((s.f.pc.toNat + 1) % 4096) = pcSucc s.f.pc := by
    apply BitVec.eq_of_toNat_eq
    simp [pcSucc]
  have hmod (n : Int) : BitVec.ofInt 12 (n % 4096) = BitVec.ofInt 12 n := ofInt_emod 12 n
  rw [hsucc, hmod, nextPc, transferTarget]
  cases hbr : k.br with
  | none => simp [taken, hbr]
  | abs => simp
  | rel => simp

theorem effectiveCtl_eq_listing (s : State) (k : Ctl) :
    effectiveCtl s k = if (s.e.fl || stallCondition s) = true then .inert else k := by
  rw [effectiveCtl]
  cases s.e.fl <;> simp

/-- The listing faults where the opcode lookup does, and otherwise lists the latch of the looked-up row. -/
theorem clockListing_of_lookup {s : State} {k : Ctl} (hk : lookupControl s = .ok k) :
    clockListing s = .next (clockWith k (operandsOfWord s.e.ir) s) := by
  have hdefined : ¬ (s.e.fl = false ∧ Config.numOpcodes ≤ (s.e.ir.extractLsb' 12 6).toNat) := by
    rintro ⟨hfl, hge⟩
    rw [(opcodeDispatch.2.2 s hfl hge).1] at hk
    cases hk
  have hctl : (if (s.e.fl || stallCondition s) = true then Ctl.inert
      else controlTable.getD (opcodeOf s.e.ir).toNat Ctl.inert) = effectiveCtl s k := by
    rw [effectiveCtl_eq_listing]
    split
    case isTrue => rfl
    case isFalse hrun =>
      have hfl : s.e.fl = false := by simp at hrun; exact hrun.1
      rw [List.getD_eq_getElem?_getD, (lookupControl_eq_ok_iff hfl k).mp hk, Option.getD_some]
  have hB : (if (effectiveCtl s k).bSel = .imm then fieldImm s.e.ir
      else regOperand s (fieldRs s.e.ir)) = operandB s (effectiveCtl s k).bSel (operandsOfWord s.e.ir) := by
    cases (effectiveCtl s k).bSel <;> rfl
  have hwval : (if s.m.wsel = .mem then readCell s.dm s.m.res else s.m.res) = writeBackValue s := by
    rw [writeBackValue]
    cases s.m.wsel <;> rfl
  rw [clockWith_eq, nextPc_eq_listing, evaluate_eRes, evaluate_eFlags, flagsOut_eq_getD, ← fetch_eq_listing,
    taken_eq_decide, ← hB, ← hctl, settledRegs, ← hwval]
  exact if_neg hdefined

/-- Settles O12: step and listing both follow the opcode lookup. -/
theorem stepIsTheListing : Obligations.StepIsTheListing := by
  unfold Obligations.StepIsTheListing
  intro s
  cases hk : lookupControl s with
  | ok k => rw [step_of_lookup hk, clockListing_of_lookup hk]
  | error r =>
    obtain ⟨hfl, hge, rfl⟩ := (lookupControl_eq_error_iff s r).mp hk
    rw [step_of_lookup_error hk, clockListing]
    exact (if_pos ⟨hfl, hge⟩).symm

end Sys2Proof.Machine
end

section
/-! PROOFS. What each instruction does in its clock (spec/41_alu_instructions.md, spec/42_load_store.md,
spec/43_control_transfer.md): one lemma per kind of control-table row, from which each family follows. -/

namespace Sys2Proof.Machine

/-! ### Every step -/

/-- Settles O30: a step is some clock, and every clock commits the older instruction. -/
theorem everyClockRetiresTheOlderInstruction : Obligations.EveryClockRetiresTheOlderInstruction := by
  unfold Obligations.EveryClockRetiresTheOlderInstruction
  intro s t hstep
  obtain ⟨k, o, rfl⟩ := step_is_clock hstep
  exact clockWith_older k o s

/-- Settles O33: likewise every clock counts one and keeps the host's inputs. -/
theorem everyClockCountsOne : Obligations.EveryClockCountsOne := by
  unfold Obligations.EveryClockCountsOne
  intro s t hstep
  obtain ⟨k, o, rfl⟩ := step_is_clock hstep
  exact ⟨rfl, clockWith_inputs k o s⟩

/-! ### Rows of opcodes 1 to 16 -/

theorem flagsOut_sub (s : State) (a b : Byte) :
    flagsOut s .sub a b = ⟨decide (a - b = 0#8), decide (a.toNat < b.toNat)⟩ := by
  rw [flagsOut, aluFlags_sub]
  rfl

theorem flagsOut_and (s : State) (a b : Byte) :
    flagsOut s .and a b = ⟨decide (a &&& b = 0#8), false⟩ := rfl
theorem flagsOut_or (s : State) (a b : Byte) :
    flagsOut s .or a b = ⟨decide (a ||| b = 0#8), false⟩ := rfl
theorem flagsOut_xor (s : State) (a b : Byte) :
    flagsOut s .xor a b = ⟨decide (a ^^^ b = 0#8), false⟩ := rfl

/-- An executing instruction with a row of opcodes 1 to 16 and given operands enters MemoryAccess with the ALU
result `v` and the flags `fl`. -/
theorem exec_writesResult {s : State} (h : ExecutesNow s) {i : Instr} {op : AluOp} {sel : BSel}
    {a b v : Byte} {fl : Flags} (hrow : controlTable.getD i.opcode .inert = .compute op sel)
    (ha : operandA s (instrOperands s i) = a) (hb : operandB s sel (instrOperands s i) = b)
    (hv : aluResult op a b = v) (hfl : flagsOut s op a b = fl) :
    ∃ t, exec i s = .next t ∧ WritesResult s t (instrOperands s i).ra a v fl.z fl.c := by
  subst hv hfl
  obtain ⟨t, hexec, hwrites, -⟩ := exec_compute h hrow ha hb
  exact ⟨t, hexec, hwrites⟩

/-- Settles O17: a row that passes operand B and sets no flags. -/
theorem moveRegisterCompletes : Obligations.MoveRegisterCompletes := by
  unfold Obligations.MoveRegisterCompletes
  intro s rd rs h
  exact exec_writesResult h (i := .movRR rd rs) rfl rfl rfl rfl rfl

/-- Settles O21: both rows subtract; the carry is the borrow. -/
theorem subtractCompletes : Obligations.SubtractCompletes := by
  unfold Obligations.SubtractCompletes
  refine fun s rd h => ⟨fun rs => ?_, fun imm => ?_⟩
  · exact exec_writesResult h (i := .subRR rd rs) rfl rfl rfl (aluResult_sub _ _) (flagsOut_sub s _ _)
  · exact exec_writesResult h (i := .subRI rd imm) rfl rfl rfl (aluResult_sub _ _) (flagsOut_sub s _ _)

/-- Settles O22: the six rows of bitwise operations write `C` as 0. -/
theorem logicCompletes : Obligations.LogicCompletes := by
  unfold Obligations.LogicCompletes
  refine fun s rd h => ⟨fun rs => ⟨?_, ?_, ?_⟩, fun imm => ⟨?_, ?_, ?_⟩⟩
  · exact exec_writesResult h (i := .andRR rd rs) rfl rfl rfl rfl (flagsOut_and s _ _)
  · exact exec_writesResult h (i := .orRR rd rs) rfl rfl rfl rfl (flagsOut_or s _ _)
  · exact exec_writesResult h (i := .xorRR rd rs) rfl rfl rfl rfl (flagsOut_xor s _ _)
  · exact exec_writesResult h (i := .andRI rd imm) rfl rfl rfl rfl (flagsOut_and s _ _)
  · exact exec_writesResult h (i := .orRI rd imm) rfl rfl rfl rfl (flagsOut_or s _ _)
  · exact exec_writesResult h (i := .xorRI rd imm) rfl rfl rfl rfl (flagsOut_xor s _ _)

/-- Settles O23: the ALU shifts by the whole operand B and sets no flags. -/
theorem shiftCompletes : Obligations.ShiftCompletes := by
  unfold Obligations.ShiftCompletes
  refine fun s rd h => ⟨fun rs => ⟨?_, ?_⟩, fun imm => ⟨?_, ?_⟩⟩
  · exact exec_writesResult h (i := .shlRR rd rs) rfl rfl rfl (aluResult_shl _ _) rfl
  · exact exec_writesResult h (i := .sarRR rd rs) rfl rfl rfl (aluResult_sar _ _) rfl
  · exact exec_writesResult h (i := .shlRI rd imm) rfl rfl rfl (aluResult_shl _ _) rfl
  · exact exec_writesResult h (i := .sarRI rd imm) rfl rfl rfl (aluResult_sar _ _) rfl

/-! ### `nop`, loads and stores -/

/-- An executing word whose row neither transfers nor stores: a plain clock. -/
theorem clockWith_plain {s : State} (h : ExecutesNow s) {k : Ctl} (hbr : k.br = .none)
    (hmwe : k.mwe = false) (o : Operands) : PlainClock s (clockWith k o s) := by
  refine ⟨clockWith_older k o s, clockWith_inputs k o s, (clockWith_front h k o).1 ?_, fun a => ?_⟩
  · simp [taken, hbr]
  · rw [clockWith_dm, effectiveCtl_executes h, hmwe]
    rfl

/-- What an executing word hands to MemoryAccess, by its looked-up row (R136). -/
theorem clockWith_m_of_executes {s : State} (h : ExecutesNow s) (k : Ctl) (o : Operands) :
    (clockWith k o s).m =
      ⟨aluResult k.aluOp (operandA s o) (operandB s k.bSel o), operandA s o,
        (flagsOut s k.aluOp (operandA s o) (operandB s k.bSel o)).z,
        (flagsOut s k.aluOp (operandA s o) (operandB s k.bSel o)).c,
        o.ra, k.rwe, k.wsel, k.mwe, s.e.pc, false⟩ := by
  rw [clockWith_m, effectiveCtl_executes h, h.1, (stallCondition_false_iff s).mpr h.2]
  rfl

/-- Settles O16: the inert row is a plain clock that enables no write. -/
theorem nopCompletes : Obligations.NopCompletes := by
  unfold Obligations.NopCompletes
  intro s h
  exact ⟨_, rfl, clockWith_plain h rfl rfl _, clockWith_m_of_executes h _ _⟩

/-- Rows 17 and 18: the address, operand B, enters MemoryAccess. -/
theorem clockWith_load {s : State} (h : ExecutesNow s) (sel : BSel) (o : Operands) :
    EntersAsLoad s (clockWith (.load sel) o s) o.ra (operandA s o) (operandB s sel o) :=
  ⟨clockWith_plain h rfl rfl o, clockWith_m_of_executes h _ o⟩

/-- Rows 19 and 20: the cell at operand B takes operand A. -/
theorem clockWith_store {s : State} (h : ExecutesNow s) (sel : BSel) (o : Operands) :
    EntersAsStore s (clockWith (.store sel) o s) o.ra (operandA s o) (operandB s sel o) := by
  refine ⟨clockWith_older _ o s, clockWith_inputs _ o s, (clockWith_front h _ o).1 rfl, fun a => ?_,
    clockWith_m_of_executes h _ o⟩
  rw [clockWith_dm, effectiveCtl_executes h]
  exact readCell_writeCell s.dm _ a _

/-- Settles O24: both forms are the load row with their own operand B. -/
theorem loadCompletes : Obligations.LoadCompletes := by
  unfold Obligations.LoadCompletes
  exact fun s rd h => ⟨fun rs => ⟨_, rfl, clockWith_load h .reg (operandsRR rd rs)⟩,
    fun imm => ⟨_, rfl, clockWith_load h .imm (operandsRI rd imm)⟩⟩

/-- Settles O25: both forms are the store row with their own operand B. -/
theorem storeCompletes : Obligations.StoreCompletes := by
  unfold Obligations.StoreCompletes
  exact fun s rd h => ⟨fun rs => ⟨_, rfl, clockWith_store h .reg (operandsRR rd rs)⟩,
    fun imm => ⟨_, rfl, clockWith_store h .imm (operandsRI rd imm)⟩⟩

/-- A load in MemoryAccess delivers in the next clock, whatever that clock does: its read comes before that
clock's store (R133, R163). -/
theorem EntersAsLoad.delivered {s t u : State} {rd : RegIx} {a ea : Byte}
    (h : EntersAsLoad s t rd a ea) (hu : step t = .next u) : readReg u.x rd = readCell s.dm ea := by
  obtain ⟨⟨-, -, -, hdata⟩, hm⟩ := h
  have hcommit := (everyClockRetiresTheOlderInstruction t u hu).1 rd
  rw [hm] at hcommit
  rw [hcommit, if_pos ⟨rfl, rfl⟩, writeBackValue, hm]
  exact hdata ea

/-- Settles O31: both forms enter as a load of their address, which the next clock delivers. -/
theorem loadDeliversTheCell : Obligations.LoadDeliversTheCell := by
  unfold Obligations.LoadDeliversTheCell
  refine fun s t u rd h hu => ⟨fun rs hexec => ?_, fun imm hexec => ?_⟩
  · cases hexec
    exact (clockWith_load h .reg (operandsRR rd rs)).delivered hu
  · cases hexec
    exact (clockWith_load h .imm (operandsRI rd imm)).delivered hu

/-- Settles O32: the store leaves operand A in the cell, and the load right behind it delivers that cell. -/
theorem loadSeesTheStoreBeforeIt : Obligations.LoadSeesTheStoreBeforeIt := by
  unfold Obligations.LoadSeesTheStoreBeforeIt
  intro s t u v rs rd ra rb a hs ht hst hld hv
  have hstored : readCell t.dm a = regOperand s rs := by
    rcases hst with hst | ⟨hst, rfl⟩
    · cases hst
      obtain ⟨-, -, -, hdata, -⟩ := clockWith_store hs .imm (operandsRI rs a)
      exact (hdata a).trans (if_pos rfl)
    · cases hst
      obtain ⟨-, -, -, hdata, -⟩ := clockWith_store hs .reg (operandsRR rs ra)
      exact (hdata (regOperand s ra)).trans (if_pos rfl)
  obtain ⟨hreg, himm⟩ := loadDeliversTheCell t u v rd ht hv
  rcases hld with hld | ⟨hld, rfl⟩
  · exact (himm a hld).trans hstored
  · exact (hreg rb hld).trans hstored

/-! ### Transfers -/

/-- Rows 21 to 26: nothing is written, and the program counter is redirected exactly when the condition holds. -/
theorem clockWith_transfer {s : State} (h : ExecutesNow s) {kind : TransferKind} (cond : Cond)
    {o : Operands} {target : Addr} (htgt : transferTarget s (.transfer kind cond) o = some target) :
    Transfers s (clockWith (.transfer kind cond) o s) o.ra (condHolds s cond) target := by
  have htaken : taken s (.transfer kind cond) = condHolds s cond := by
    cases kind with
    | none => cases htgt
    | abs | rel => rfl
  obtain ⟨hstraight, hredirect⟩ := clockWith_front h (.transfer kind cond) o
  rw [htaken] at hstraight hredirect
  refine ⟨clockWith_older _ o s, clockWith_inputs _ o s, fun a => ?_, clockWith_m_of_executes h _ o,
    fun hgo => hredirect target hgo htgt, hstraight⟩
  rw [clockWith_dm, effectiveCtl_executes h]
  rfl

/-- Settles O26: the target is the absolute field. -/
theorem jumpCompletes : Obligations.JumpCompletes := by
  unfold Obligations.JumpCompletes
  exact fun s a h => ⟨⟨_, rfl, clockWith_transfer h .always (o := operandsA a) (kind := .abs) rfl⟩,
    ⟨_, rfl, clockWith_transfer h .z (o := operandsA a) (kind := .abs) rfl⟩,
    ⟨_, rfl, clockWith_transfer h .nz (o := operandsA a) (kind := .abs) rfl⟩⟩

/-- The stored field of a relative branch differs from its offset by a multiple of 4096, which a program address
does not show (R92). -/
theorem ofInt_add_operandsS (pc off : Int) :
    BitVec.ofInt 12 (pc + (operandsS off).a12.toInt) = BitVec.ofInt 12 (pc + off) := by
  have hfield : (operandsS off).a12 = BitVec.ofInt 12 off := rfl
  rw [hfield, BitVec.ofInt_add, BitVec.ofInt_toInt, ← BitVec.ofInt_add]

theorem transferTarget_operandsS (s : State) (cond : Cond) (off : Int) :
    transferTarget s (.transfer .rel cond) (operandsS off) =
      some (BitVec.ofInt 12 (((s.e.pc.toNat : Int) + off) % 4096)) :=
  congrArg some ((ofInt_add_operandsS _ off).trans (ofInt_emod 12 _).symm)

/-- Settles O27: the target is relative to the branch's own address. -/
theorem branchCompletes : Obligations.BranchCompletes := by
  unfold Obligations.BranchCompletes
  exact fun s off h _ _ =>
    ⟨⟨_, rfl, clockWith_transfer h .always (transferTarget_operandsS s .always off)⟩,
      ⟨_, rfl, clockWith_transfer h .z (transferTarget_operandsS s .z off)⟩,
      ⟨_, rfl, clockWith_transfer h .nz (transferTarget_operandsS s .nz off)⟩⟩

/-! ### Stalls -/

/-- Settles O28: a stalled clock is idle for the word in Execute and holds the front; the bubble it sends to
MemoryAccess ends the stall. -/
theorem stallHoldsForOneClock : Obligations.StallHoldsForOneClock := by
  unfold Obligations.StallHoldsForOneClock
  intro s i _ hst
  have hclock := exec_eq_clockWith i s
  generalize controlTable.getD i.opcode .inert = k at hclock
  obtain ⟨hdm, hm⟩ := clockWith_idle (fun hx => hx.2 hst) k (instrOperands s i)
  obtain ⟨hrwe, hmwe, hz, hc⟩ := hm.writes_nothing
  rw [EntersInert] at hm
  refine ⟨_, hclock, clockWith_older k _ s, clockWith_inputs k _ s,
    clockWith_stalled hst k _, fun a => congrArg (readCell · a) hdm, hrwe, hmwe, ?_, hz, hc, ?_, ?_,
    not_stalled_of_rwe_eq_false hrwe⟩
  all_goals rw [hm]

/-! ### What only some instructions change -/

/-- A step of a word that executes ran the row of the control table at its opcode. -/
theorem row_of_step {s t : State} (h : ExecutesNow s) (hstep : step s = .next t) :
    ∃ k, controlTable[(opcodeOf s.e.ir).toNat]? = some k ∧
      t = clockWith k (operandsOfWord s.e.ir) s := by
  obtain ⟨k, hk, ht⟩ := lookup_of_step hstep
  exact ⟨k, (lookupControl_eq_ok_iff h.1 k).mp hk, ht⟩

/-- What holds of every row of the control table at its number holds of the row looked up. -/
theorem row_forall {P : Nat → Ctl → Prop} {n : Nat} {k : Ctl} (hrow : controlTable[n]? = some k)
    (hall : ∀ n : Fin controlTable.length, P n controlTable[n]) : P n k := by
  obtain ⟨hn, rfl⟩ := List.getElem?_eq_some_iff.mp hrow
  exact hall ⟨n, hn⟩

/-- Settles O35: an idle clock keeps memory, and only the store rows enable the memory write. -/
theorem onlyStoresChangeDataMemory : Obligations.OnlyStoresChangeDataMemory := by
  unfold Obligations.OnlyStoresChangeDataMemory
  intro s t a hstep hne
  by_cases h : ExecutesNow s
  · obtain ⟨k, hrow, rfl⟩ := row_of_step h hstep
    refine ⟨h, row_forall (P := fun n k => k.mwe = true → n = 19 ∨ n = 20) hrow (by decide) ?_⟩
    by_contra hmwe
    rw [clockWith_dm, effectiveCtl_executes h, if_neg hmwe] at hne
    exact hne rfl
  · obtain ⟨k, -, rfl⟩ := lookup_of_step hstep
    exact absurd (congrArg (readCell · a) (clockWith_idle h k _).1) hne

theorem flagsOut_of_no_write {op : AluOp} (h : flagWriteEnable op = false) (s : State) (a b : Byte) :
    flagsOut s op a b = ⟨s.m.z, s.m.c⟩ := by
  rw [flagWriteEnable_iff op a b, Option.isSome_eq_false_iff, Option.isNone_iff_eq_none] at h
  rw [flagsOut, h]

/-- Settles O36: an idle clock keeps the flags, and only the rows 3 to 12 enable the flag write. -/
theorem onlyArithmeticAndLogicChangeFlags : Obligations.OnlyArithmeticAndLogicChangeFlags := by
  unfold Obligations.OnlyArithmeticAndLogicChangeFlags
  intro s t hstep hne
  by_cases h : ExecutesNow s
  · obtain ⟨k, hrow, rfl⟩ := row_of_step h hstep
    refine ⟨h, row_forall (P := fun n k => flagWriteEnable k.aluOp = true → 3 ≤ n ∧ n ≤ 12) hrow
      (by decide) ?_⟩
    by_contra hfwe
    rw [clockWith_m_of_executes h, flagsOut_of_no_write (by simpa using hfwe)] at hne
    exact hne.elim (· rfl) (· rfl)
  · obtain ⟨k, -, rfl⟩ := lookup_of_step hstep
    obtain ⟨-, -, hz, hc⟩ := (clockWith_idle h k (operandsOfWord s.e.ir)).2.writes_nothing
    exact absurd hne (by simp [hz, hc])

/-- Settles O37: without an executing word the counter holds or counts on; with one, only the rows 21 to 26
transfer. -/
theorem onlyTransfersLeaveTheStraightLine : Obligations.OnlyTransfersLeaveTheStraightLine := by
  unfold Obligations.OnlyTransfersLeaveTheStraightLine
  intro s t hstep hne
  by_cases h : ExecutesNow s
  · obtain ⟨k, hrow, rfl⟩ := row_of_step h hstep
    refine .inr ⟨h, row_forall (P := fun n k => k.br ≠ .none → 21 ≤ n ∧ n ≤ 26) hrow (by decide) ?_⟩
    intro hbr
    obtain ⟨-, -, hpc⟩ := (clockWith_front h k (operandsOfWord s.e.ir)).1 (by simp [taken, hbr])
    exact hne hpc
  · obtain ⟨k, -, rfl⟩ := lookup_of_step hstep
    rcases stalled_or_flushed h with hst | ⟨hfl, hst⟩
    · exact .inl ⟨hst, (clockWith_stalled hst k _).2.2⟩
    · exact absurd (clockWith_flushed hfl hst k _).2.2 hne

end Sys2Proof.Machine
end

section
/-! PROOFS. Reset and the invariants that every step keeps (spec/70_reset_and_hazards.md section 1,
spec/40_pipeline_engine.md section 6): the canonical memory, the defined words, the mirror in Writeback and the
shape of the pipeline. -/

namespace Sys2Proof.Machine

/-! ### Reset -/

/-- Settles O38: each field of `State.reset`. -/
theorem resetState : Obligations.ResetState := by
  unfold Obligations.ResetState
  exact ⟨readReg_replicate 0#8, fun _ => rfl, rfl, rfl, rfl, rfl, rfl, rfl, rfl, rfl, rfl, rfl⟩

theorem programWf_iff (p : List Word) :
    programWf p = true ↔ p.length ≤ 4096 ∧ ∀ w ∈ p, wordDefined w = true := by
  simp [programWf, Config.maxProgramLength]

theorem hostReset_of_wf {p : List Word} (h : programWf p = true) (s : State) :
    hostReset p s = .next (State.resetWith p s.fwdEn s.flushEn s.stallEn) := by
  have hlen : ¬ Config.maxProgramLength < p.length := not_lt.mpr ((programWf_iff p).mp h).1
  rw [hostReset, if_neg hlen, if_pos h]

/-- Settles O39: the length is tested first, then the words. -/
theorem hostResetBindsOrRefuses : Obligations.HostResetBindsOrRefuses := by
  unfold Obligations.HostResetBindsOrRefuses
  refine fun p s => ⟨fun hwf => ⟨_, hostReset_of_wf hwf s, rfl⟩, fun hlong => if_pos hlong, ?_⟩
  rintro hlen ⟨w, hw, hundef⟩
  have hwf : ¬ programWf p = true := by
    intro h
    rw [((programWf_iff p).mp h).2 w hw] at hundef
    cases hundef
  rw [hostReset, if_neg (not_lt.mpr hlen), if_neg hwf]

/-- `hostReset` answers a state for well-formed programs only, and it is the reset state with that program. -/
theorem hostReset_eq_next {p : List Word} {s t : State} (h : hostReset p s = .next t) :
    programWf p = true ∧ t = State.resetWith p s.fwdEn s.flushEn s.stallEn := by
  by_cases hwf : programWf p = true
  · rw [hostReset_of_wf hwf] at h
    cases h
    exact ⟨hwf, rfl⟩
  · rw [hostReset, if_neg hwf] at h
    split at h <;> cases h

theorem wordDefined_zero : wordDefined 0#18 = true := rfl

theorem resetWith_wordsDefined {p : List Word} (h : ∀ w ∈ p, wordDefined w = true) (a b c : Bool) :
    WordsDefined (State.resetWith p a b c) :=
  ⟨h, fun _ => wordDefined_zero, fun _ => wordDefined_zero⟩

/-- In the first clock the reset fillers are in place and nothing later is claimed. -/
theorem resetWith_pipelineShape (p : List Word) (a b c : Bool) :
    PipelineShape (State.resetWith p a b c) where
  atReset _ := ⟨rfl, rfl, rfl⟩
  afterOne h := absurd h Nat.zero_ne_one
  noEarlyWrite _ := rfl
  decodeWord h := absurd h (by simp)
  executeWord h := absurd h (by simp)
  decodeFlushed h := absurd h Bool.false_ne_true
  executeFlushed h := absurd h Bool.false_ne_true

/-- Settles O40: each invariant of a reset state, with the program's words from `programWf`. -/
theorem resetEstablishesTheInvariants : Obligations.ResetEstablishesTheInvariants := by
  unfold Obligations.ResetEstablishesTheInvariants
  refine ⟨⟨empty_wf, resetWith_wordsDefined (List.forall_mem_nil _) _ _ _,
    fun h => absurd h Bool.false_ne_true, fun h => WSel.noConfusion h,
    resetWith_pipelineShape [] _ _ _⟩, fun p s t h => ?_⟩
  obtain ⟨hwf, rfl⟩ := hostReset_eq_next h
  exact ⟨empty_wf, resetWith_wordsDefined ((programWf_iff p).mp hwf).2 _ _ _,
    fun h => absurd h Bool.false_ne_true, fun h => WSel.noConfusion h, resetWith_pipelineShape p _ _ _⟩

/-! ### Data memory stays canonical -/

/-- Settles O41: a clock keeps the memory or stores one byte, and a store keeps the form. -/
theorem stepKeepsMemoryCanonical : Obligations.StepKeepsMemoryCanonical := by
  unfold Obligations.StepKeepsMemoryCanonical
  intro s t hwf hstep
  obtain ⟨k, o, rfl⟩ := step_is_clock hstep
  rw [clockWith_dm]
  split
  · exact writeCell_wf s.dm _ _ hwf
  · exact hwf

/-! ### How the front stages move -/

/-- The clock of a control set that is in effect inert: nothing is written, the flags are held, and without a
stall the younger words move on. -/
theorem clockWith_of_inert {s : State} {k : Ctl} (hk : effectiveCtl s k = .inert) (o : Operands) :
    (clockWith k o s).dm = s.dm ∧ (clockWith k o s).m.rwe = false ∧
      (clockWith k o s).m.z = s.m.z ∧ (clockWith k o s).m.c = s.m.c ∧
      (¬ Stalled s → FlowsOn s (clockWith k o s)) := by
  rw [clockWith_dm, clockWith_m, hk]
  refine ⟨rfl, rfl, rfl, rfl, fun hst => ?_⟩
  by_cases hfl : s.e.fl = true
  · exact clockWith_flushed hfl hst k o
  · have hx : ExecutesNow s := ⟨by simpa using hfl, hst⟩
    rw [effectiveCtl_executes hx] at hk
    exact (clockWith_front hx k o).1 (by rw [hk]; exact taken_inert s)

/-- What a clock does to Fetch, Decode and Execute: a stall holds them, a taken transfer redirects them, and
otherwise they flow on. -/
theorem clockWith_front_cases (k : Ctl) (o : Operands) (s : State) :
    (Stalled s ∧ HoldsBack s (clockWith k o s)) ∨
    (¬ Stalled s ∧ FlowsOn s (clockWith k o s)) ∨
    (¬ Stalled s ∧ ∃ target, effectiveCtl s k ≠ .inert ∧ Redirects s (clockWith k o s) target) := by
  by_cases hst : Stalled s
  · exact .inl ⟨hst, clockWith_stalled hst k o⟩
  · by_cases hin : effectiveCtl s k = .inert
    · obtain ⟨-, -, -, -, hflow⟩ := clockWith_of_inert hin o
      exact .inr (.inl ⟨hst, hflow hst⟩)
    · have hx : ExecutesNow s := by_contra fun hx => hin (effectiveCtl_inert hx k)
      obtain ⟨hstraight, hredirect⟩ := clockWith_front hx k o
      cases ht : taken s k with
      | false => exact .inr (.inl ⟨hst, hstraight ht⟩)
      | true =>
        obtain ⟨target, htgt⟩ := transferTarget_of_br_ne_none s o ((taken_iff s k).mp ht).1
        exact .inr (.inr ⟨hst, target, hin, hredirect target ht htgt⟩)

/-! ### Defined words stay defined -/

theorem fetch_wordDefined {p : List Word} (h : ∀ w ∈ p, wordDefined w = true) (a : Addr) :
    wordDefined (fetch p a) = true := by
  rcases fetch_mem_or_zero p a with hmem | hzero
  · exact h _ hmem
  · rw [hzero]
    exact wordDefined_zero

theorem clockWith_wordsDefined {s : State} (h : WordsDefined s) (k : Ctl) (o : Operands) :
    WordsDefined (clockWith k o s) := by
  obtain ⟨hprog, hd, he⟩ := h
  have hfetch := fetch_wordDefined hprog s.f.pc
  rw [WordsDefined, (clockWith_inputs k o s).1]
  refine ⟨hprog, ?_⟩
  rcases clockWith_front_cases k o s with ⟨-, hte, htd, -⟩ | ⟨-, hte, htd, -⟩ |
    ⟨-, target, -, -, hon, hoff⟩
  · rw [hte, htd]
    exact ⟨hd, he⟩
  · rw [hte, htd]
    exact ⟨fun _ => hfetch, hd⟩
  · cases hfe : s.flushEn with
    | true =>
      obtain ⟨hte, htd⟩ := hon hfe
      rw [hte, htd]
      exact ⟨fun hfl => Bool.noConfusion hfl, fun hfl => Bool.noConfusion hfl⟩
    | false =>
      obtain ⟨hte, htd⟩ := hoff hfe
      rw [hte, htd]
      exact ⟨fun _ => hfetch, hd⟩

/-- Settles O42: a defined word finds its row, so the step is that row's clock. -/
theorem wellFormedProgramsNeverFault : Obligations.WellFormedProgramsNeverFault := by
  unfold Obligations.WellFormedProgramsNeverFault
  intro s h
  cases hk : lookupControl s with
  | ok k => exact ⟨_, step_of_lookup hk, clockWith_wordsDefined h k _⟩
  | error r =>
    obtain ⟨hfl, hge, -⟩ := (lookupControl_eq_error_iff s r).mp hk
    have hlt := (wordDefined_iff s.e.ir).mp (h.2.2 hfl)
    omega

/-! ### Writeback mirrors the register file -/

/-- The memory select comes only with a register write (R168). -/
theorem rwe_of_wsel_mem {s : State} {k : Ctl} (hk : lookupControl s = .ok k)
    (hmem : (effectiveCtl s k).wsel = .mem) : (effectiveCtl s k).rwe = true := by
  by_cases h : ExecutesNow s
  · rw [effectiveCtl_executes h] at hmem ⊢
    exact row_forall (P := fun _ k => k.wsel = .mem → k.rwe = true)
      ((lookupControl_eq_ok_iff h.1 k).mp hk) (by decide) hmem
  · rw [effectiveCtl_inert h] at hmem
    cases hmem

theorem OlderRetires.writebackMirrors {s t : State} (h : OlderRetires s t) : WritebackMirrors t := by
  obtain ⟨hx, hw⟩ := h
  rw [WritebackMirrors, hw]
  intro hrwe
  exact (hx s.m.rd).trans (if_pos ⟨hrwe, rfl⟩)

/-- Where Writeback mirrors the register file, forwarding is MemoryAccess's result or the cell itself. -/
theorem forward_of_mirrors {s : State} (h : WritebackMirrors s) (i : RegIx) :
    regOperand s i =
      if s.fwdEn = true ∧ s.m.rwe = true ∧ s.m.wsel = .alu ∧ s.m.rd = i then s.m.res
      else readReg s.x i := by
  rw [regOperand]
  rcases forward_cases s i (readReg s.x i) with ⟨hf, hrwe, hsel, hrd, hv⟩ |
    ⟨hm, -, hrwe, rfl, hv⟩ | ⟨hm, -, hv⟩
  · rw [hv, if_pos ⟨hf, hrwe, hsel, hrd⟩]
  · rw [hv, if_neg hm, h hrwe]
  · rw [hv, if_neg hm]

/-- Settles O44: what Writeback latches is what the register file commits. -/
theorem writebackMirrorsAfterEveryClock : Obligations.WritebackMirrorsAfterEveryClock := by
  unfold Obligations.WritebackMirrorsAfterEveryClock
  intro s t hstep
  have hmirror := (everyClockRetiresTheOlderInstruction s t hstep).writebackMirrors
  obtain ⟨k, hk, rfl⟩ := lookup_of_step hstep
  refine ⟨hmirror, fun hmem => ?_, forward_of_mirrors hmirror⟩
  rw [clockWith_m] at hmem ⊢
  exact rwe_of_wsel_mem hk hmem

/-! ### The shape of the pipeline -/

/-- The filler word in Execute after reset is a `nop`: its row is the inert one. -/
theorem lookupControl_of_reset_slot {s : State} (he : s.e = Slot.reset) :
    lookupControl s = .ok .inert := by
  rw [lookupControl, he]
  rfl

theorem PipelineShape.execute_reset {s : State} (h : PipelineShape s) (hc : s.cycle ≤ 1) :
    s.e = Slot.reset := by
  rcases Nat.le_one_iff_eq_zero_or_eq_one.mp hc with h0 | h1
  · exact (h.atReset h0).1
  · exact h.afterOne h1

/-- In the first two clocks the filler in Execute is inert (R292). -/
theorem PipelineShape.effectiveCtl_early {s : State} (h : PipelineShape s) (hc : s.cycle ≤ 1) {k : Ctl}
    (hk : lookupControl s = .ok k) : effectiveCtl s k = .inert := by
  rw [lookupControl_of_reset_slot (h.execute_reset hc)] at hk
  cases hk
  rw [effectiveCtl_eq_listing, ite_self]

/-- A stall needs a load ahead, so it comes after the first two clocks. -/
theorem PipelineShape.cycle_of_stalled {s : State} (h : PipelineShape s) (hst : Stalled s) :
    2 ≤ s.cycle := by
  by_contra hc
  exact not_stalled_of_rwe_eq_false (h.noEarlyWrite (by omega)) hst

section
variable {s t : State} (h : PipelineShape s) (hprog : t.program = s.program)
  (hcycle : t.cycle = s.cycle + 1)
include h hprog hcycle

/-- A stalled clock leaves the three front stages, and so the shape, as they are. -/
theorem PipelineShape.of_holdsBack (hst : Stalled s) (hback : HoldsBack s t) : PipelineShape t := by
  obtain ⟨he, hd, hf⟩ := hback
  have hc := h.cycle_of_stalled hst
  constructor
  case atReset => omega
  case afterOne => omega
  case noEarlyWrite => omega
  case decodeWord =>
    rw [hd, hf, hprog]
    exact fun _ => h.decodeWord (by omega)
  case executeWord =>
    rw [he, hd, hprog]
    exact fun _ => h.executeWord hc
  case decodeFlushed => exact hd ▸ h.decodeFlushed
  case executeFlushed => exact he ▸ h.executeFlushed

/-- When the words move on, Decode's facts become Execute's and the fetch gives Decode's. -/
theorem PipelineShape.of_flowsOn (hearly : s.cycle = 0 → t.m.rwe = false) (hflow : FlowsOn s t) :
    PipelineShape t := by
  obtain ⟨he, hd, hf⟩ := hflow
  constructor
  case atReset => omega
  case afterOne => exact fun hc => he.trans (h.atReset (by omega)).2.1
  case noEarlyWrite => exact fun hc => hearly (by omega)
  case decodeWord =>
    rw [hd, hf, hprog]
    exact fun _ _ => ⟨rfl, rfl⟩
  case executeWord =>
    intro hc hfl
    rw [he] at hfl ⊢
    obtain ⟨hword, hnext⟩ := h.decodeWord (by omega) hfl
    rw [hd, hprog]
    exact ⟨hword, rfl, hnext⟩
  case decodeFlushed =>
    rw [hd]
    exact fun hfl => Bool.noConfusion hfl
  case executeFlushed => exact he ▸ h.decodeFlushed

end

/-- Past the first two clocks, two bubbles in Decode and Execute are in shape. -/
theorem pipelineShape_of_bubbles {t : State} {a b : Addr} (hc : 2 ≤ t.cycle) (he : t.e = ⟨0#18, a, true⟩)
    (hd : t.d = ⟨0#18, b, true⟩) : PipelineShape t := by
  constructor
  case atReset => omega
  case afterOne => omega
  case noEarlyWrite => omega
  case decodeWord =>
    rw [hd]
    exact fun _ hfl => Bool.noConfusion hfl
  case executeWord =>
    rw [he]
    exact fun _ hfl => Bool.noConfusion hfl
  case decodeFlushed => rw [hd]; exact fun _ => rfl
  case executeFlushed => rw [he]; exact fun _ => rfl

/-- Settles O43: the front stages hold, flow on or are squashed; the fillers of the first two clocks neither
write nor transfer. -/
theorem stepKeepsPipelineShape : Obligations.StepKeepsPipelineShape := by
  unfold Obligations.StepKeepsPipelineShape
  intro s t hfe h hstep
  obtain ⟨k, hk, rfl⟩ := lookup_of_step hstep
  obtain ⟨hprog, -, -, -, hcycle⟩ := clockWith_inputs k (operandsOfWord s.e.ir) s
  rcases clockWith_front_cases k (operandsOfWord s.e.ir) s with ⟨hst, hback⟩ | ⟨-, hflow⟩ |
    ⟨-, target, hin, -, hsquash, -⟩
  · exact h.of_holdsBack hprog hcycle hst hback
  · refine h.of_flowsOn hprog hcycle (fun hc => ?_) hflow
    exact (clockWith_of_inert (h.effectiveCtl_early (by omega) hk) _).2.1
  · have hc : 2 ≤ s.cycle := by
      by_contra hc
      exact hin (h.effectiveCtl_early (by omega) hk)
    obtain ⟨he, hd⟩ := hsquash hfe
    exact pipelineShape_of_bubbles (by omega) he hd

end Sys2Proof.Machine
end

section
/-! PROOFS. Hazards and sequential equivalence (spec/70_reset_and_hazards.md section 3): operands are the newest
values, one clock is one instruction of the sequential view or none, and so are whole runs. -/

namespace Sys2Proof.Machine

/-! ### Operands -/

theorem readReg_settledRegs (s : State) (i : RegIx) :
    readReg (settledRegs s) i =
      if s.m.rwe = true ∧ s.m.rd = i then writeBackValue s else readReg s.x i := by
  rw [settledRegs]
  split <;> simp_all [readReg_writeReg]

/-- Settles O45: without a load in MemoryAccess the pending write is its ALU result, which is forwarded. -/
theorem forwardedOperandIsTheNewestValue : Obligations.ForwardedOperandIsTheNewestValue := by
  unfold Obligations.ForwardedOperandIsTheNewestValue
  intro s i hfwd hmirror hload
  rw [forward_of_mirrors hmirror, readReg_settledRegs, writeBackValue]
  cases hsel : s.m.wsel with
  | alu => simp [hfwd]
  | mem =>
    have hrwe : ¬ s.m.rwe = true := fun hrwe => hload ⟨hrwe, hsel⟩
    simp [hrwe]

/-- Settles O46: forwarding needs its policy, and a load in MemoryAccess is no source. -/
theorem staleReadsWithoutTheirPolicy : Obligations.StaleReadsWithoutTheirPolicy := by
  unfold Obligations.StaleReadsWithoutTheirPolicy
  refine fun s i => ⟨fun hfwd => ?_, fun hmem hmirror => ?_⟩
  · simp [regOperand, forward, hfwd]
  · simp [forward_of_mirrors hmirror, hmem]

/-- With all policies on, an executing word reads the newest values: a load ahead would have stalled it. -/
theorem regOperand_eq_settled {s : State} (hpol : AllPolicies s) (hmirror : WritebackMirrors s)
    (hst : ¬ Stalled s) (i : RegIx) : regOperand s i = readReg (settledRegs s) i := by
  obtain ⟨hfwd, -, hstall⟩ := hpol
  exact forwardedOperandIsTheNewestValue s i hfwd hmirror fun ⟨hrwe, hsel⟩ => hst ⟨hstall, hrwe, hsel⟩

/-! ### The sequential view by control-table row -/

/-- Operand B of a row in the sequential view. -/
def SeqState.operandB (q : SeqState) (sel : BSel) (o : Operands) : Byte :=
  match sel with
  | .imm => o.imm
  | .reg => readReg q.x o.rb

/-- Whether a row transfers, on the sequential zero flag. -/
def SeqState.takes (q : SeqState) (k : Ctl) : Bool :=
  match k.cond with
  | .always => true
  | .z => q.z
  | .nz => !q.z

/-- The next program address of a row in the sequential view. -/
def SeqState.nextPc (q : SeqState) (k : Ctl) (o : Operands) : Addr :=
  match k.br with
  | .none => pcSucc q.pc
  | .abs => if q.takes k = true then o.a12 else pcSucc q.pc
  | .rel => if q.takes k = true then q.relative o.a12.toInt else pcSucc q.pc

/-- One row of the control table on a sequential state: the datapath without its pipeline. -/
def SeqState.runRow (q : SeqState) (k : Ctl) (o : Operands) : SeqState :=
  let a := readReg q.x o.ra
  let v := aluResult k.aluOp a (q.operandB k.bSel o)
  let fl := (aluFlags k.aluOp a (q.operandB k.bSel o)).getD ⟨q.z, q.c⟩
  let dm := if k.mwe = true then writeCell q.dm v a else q.dm
  let wval := match k.wsel with
    | .mem => readCell dm v
    | .alu => v
  { x := if k.rwe = true then writeReg q.x o.ra wval else q.x
    dm := dm
    z := fl.z
    c := fl.c
    pc := q.nextPc k o }

theorem SeqState.subFrom_eq (q : SeqState) (rd : RegIx) (b : Byte) :
    q.subFrom rd b =
      q.putFlags rd (aluResult .sub (readReg q.x rd) b) (subBorrow (readReg q.x rd) b) :=
  congrArg (q.putFlags rd · _) (ofInt_emod 8 _)

theorem SeqState.shiftLeft_eq (q : SeqState) (rd : RegIx) (b : Byte) :
    q.shiftLeft rd b = q.put rd (aluResult .shl (readReg q.x rd) b) := by
  refine congrArg (q.put rd) (BitVec.eq_of_toNat_eq ?_)
  simp [aluResult]

theorem SeqState.shiftRight_eq (q : SeqState) (rd : RegIx) (b : Byte) :
    q.shiftRight rd b = q.put rd (aluResult .sar (readReg q.x rd) b) :=
  congrArg (q.put rd) (ofInt_emod 8 _)

theorem SeqState.relative_operandsS (q : SeqState) (off : Int) :
    q.relative (operandsS off).a12.toInt = q.relative off := by
  have hmod (n : Int) : BitVec.ofInt 12 (n % 4096) = BitVec.ofInt 12 n := ofInt_emod 12 n
  rw [SeqState.relative, SeqState.relative, hmod, hmod, ofInt_add_operandsS]

/-- The sequential view of every instruction is its row of the control table: both masks of the pseudocode, of
results and of targets, are the datapath's widths. -/
theorem seqExec_eq_runRow (i : Instr) (q : SeqState) (s : State) :
    seqExec i q = q.runRow (controlTable.getD i.opcode .inert) (instrOperands s i) := by
  cases i with
  | addRR rd rs => exact (q.addTo_eq rd _).trans (by rw [← aluResult_add]; rfl)
  | addRI rd imm => exact (q.addTo_eq rd _).trans (by rw [← aluResult_add]; rfl)
  | subRR rd rs => exact q.subFrom_eq rd _
  | subRI rd imm => exact q.subFrom_eq rd _
  | shlRR rd rs => exact q.shiftLeft_eq rd _
  | shlRI rd imm => exact q.shiftLeft_eq rd _
  | sarRR rd rs => exact q.shiftRight_eq rd _
  | sarRI rd imm => exact q.shiftRight_eq rd _
  | br off => exact congrArg (q.goIf true) (q.relative_operandsS off).symm
  | bz off => exact congrArg (q.goIf q.z) (q.relative_operandsS off).symm
  | bnz off => exact congrArg (q.goIf !q.z) (q.relative_operandsS off).symm
  | _ => rfl

/-! ### One clock in the sequential view -/

/-- When the words move on, Decode's program word is Execute's, and Decode has one. -/
theorem FlowsOn.program_words {s t : State} (hcycle : t.cycle = s.cycle + 1) (hflow : FlowsOn s t) :
    executeHoldsProgramWord t = decodeHoldsProgramWord s ∧ decodeHoldsProgramWord t = true := by
  obtain ⟨he, hd, -⟩ := hflow
  rw [executeHoldsProgramWord, decodeHoldsProgramWord, decodeHoldsProgramWord, he, hd, hcycle]
  simp

/-- The next instruction to execute, after the words moved on, is at Decode's address if Decode held a program
word, else at the old program counter. -/
theorem nextToExecute_of_flowsOn {s t : State} (hcycle : t.cycle = s.cycle + 1) (hflow : FlowsOn s t) :
    nextToExecute t = if decodeHoldsProgramWord s = true then s.d.pc else s.f.pc := by
  obtain ⟨hexec, hdec⟩ := hflow.program_words hcycle
  obtain ⟨he, hd, -⟩ := hflow
  rw [nextToExecute, hexec, hdec, he, hd]
  rfl

theorem executeHoldsProgramWord_iff (s : State) :
    executeHoldsProgramWord s = true ↔ s.e.fl = false ∧ 2 ≤ s.cycle := by
  simp [executeHoldsProgramWord]

theorem decodeHoldsProgramWord_iff (s : State) :
    decodeHoldsProgramWord s = true ↔ s.d.fl = false ∧ 1 ≤ s.cycle := by
  simp [decodeHoldsProgramWord]

/-- Where a program word executes, its successor in program order is in Decode. -/
theorem PipelineShape.decode_follows {s : State} (h : PipelineShape s)
    (hword : executeHoldsProgramWord s = true) :
    s.e.ir = fetch s.program s.e.pc ∧ decodeHoldsProgramWord s = true ∧ s.d.pc = s.e.pc + 1#12 := by
  obtain ⟨hfl, hc⟩ := (executeHoldsProgramWord_iff s).mp hword
  obtain ⟨hir, hdfl, hpc⟩ := h.executeWord hc hfl
  have hc' : 1 ≤ s.cycle := by omega
  exact ⟨hir, by simp [decodeHoldsProgramWord, hdfl, hc'], hpc⟩

/-- A clock in which no program word executes has the inert control set: a bubble, a stall, or a filler of
reset. -/
theorem PipelineShape.effectiveCtl_idle {s : State} (h : PipelineShape s)
    (hidle : ¬ (executeHoldsProgramWord s = true ∧ ¬ Stalled s)) {k : Ctl} (hk : lookupControl s = .ok k) :
    effectiveCtl s k = .inert := by
  by_cases hx : ExecutesNow s
  · refine h.effectiveCtl_early ?_ hk
    by_contra hc
    exact hidle ⟨(executeHoldsProgramWord_iff s).mpr ⟨hx.1, by omega⟩, hx.2⟩
  · exact effectiveCtl_inert hx k

/-- An idle clock leaves the next instruction to execute where it is. -/
theorem nextToExecute_of_idle {s : State} (h : PipelineShape s)
    (hidle : ¬ (executeHoldsProgramWord s = true ∧ ¬ Stalled s)) {k : Ctl} {o : Operands}
    (hflow : ¬ Stalled s → FlowsOn s (clockWith k o s)) :
    nextToExecute (clockWith k o s) = nextToExecute s := by
  obtain ⟨-, -, -, -, hcycle⟩ := clockWith_inputs k o s
  by_cases hst : Stalled s
  · obtain ⟨he, hd, hf⟩ := clockWith_stalled hst k o
    have hc := h.cycle_of_stalled hst
    have hexec : executeHoldsProgramWord (clockWith k o s) = executeHoldsProgramWord s := by
      rw [Bool.eq_iff_iff, executeHoldsProgramWord_iff, executeHoldsProgramWord_iff, he, hcycle]
      exact and_congr_right fun _ => by omega
    have hdec : decodeHoldsProgramWord (clockWith k o s) = decodeHoldsProgramWord s := by
      rw [Bool.eq_iff_iff, decodeHoldsProgramWord_iff, decodeHoldsProgramWord_iff, hd, hcycle]
      exact and_congr_right fun _ => by omega
    simp only [nextToExecute, hexec, hdec, he, hd, hf]
  · have hword : ¬ executeHoldsProgramWord s = true := fun hword => hidle ⟨hword, hst⟩
    rw [nextToExecute_of_flowsOn hcycle (hflow hst), nextToExecute, if_neg hword]

/-- An idle clock shows the same sequential state: it settles the pending write and nothing else. -/
theorem architectural_of_idle {s : State} (h : PipelineShape s)
    (hidle : ¬ (executeHoldsProgramWord s = true ∧ ¬ Stalled s)) {k : Ctl} (hk : lookupControl s = .ok k)
    (o : Operands) : architectural (clockWith k o s) = architectural s := by
  obtain ⟨hdm, hrwe, hz, hc, hflow⟩ := clockWith_of_inert (h.effectiveCtl_idle hidle hk) o
  have hx : settledRegs (clockWith k o s) = settledRegs s := by
    rw [settledRegs, if_neg (by simp [hrwe]), clockWith_eq]
  rw [architectural, hx, hdm, hz, hc, nextToExecute_of_idle h hidle hflow, ← architectural]

/-- The sequential view transfers when the pipeline does, and to the same target. -/
theorem SeqState.nextPc_cases {q : SeqState} {s : State} (hpc : q.pc = s.e.pc) (hz : q.z = s.m.z) (k : Ctl)
    (o : Operands) :
    (taken s k = false ∧ q.nextPc k o = s.e.pc + 1#12) ∨
    (taken s k = true ∧ transferTarget s k o = some (q.nextPc k o)) := by
  have htakes : q.takes k = condHolds s k.cond := by
    cases hcond : k.cond <;> simp [SeqState.takes, condHolds, hcond, hz]
  have hrel (off : Int) : q.relative off = BitVec.ofInt 12 ((s.e.pc.toNat : Int) + off) := by
    rw [SeqState.relative, hpc]
    exact ofInt_emod 12 _
  rw [SeqState.nextPc, transferTarget, taken, htakes, hpc, hrel]
  cases k.br with
  | none => exact .inl ⟨rfl, rfl⟩
  | abs | rel => cases condHolds s k.cond <;> simp [pcSucc]

/-- The next address after an executing program word: the target of a taken transfer, which squashes the words
behind it, else the address in Decode. -/
theorem nextToExecute_of_executes {s : State} (hfe : s.flushEn = true) (h : PipelineShape s)
    (hword : executeHoldsProgramWord s = true) (hst : ¬ Stalled s) (k : Ctl) (o : Operands) :
    nextToExecute (clockWith k o s) = (architectural s).nextPc k o := by
  have hx : ExecutesNow s := ⟨((executeHoldsProgramWord_iff s).mp hword).1, hst⟩
  have hown : (architectural s).pc = s.e.pc := if_pos hword
  obtain ⟨-, -, -, -, hcycle⟩ := clockWith_inputs k o s
  obtain ⟨hstraight, hredirect⟩ := clockWith_front hx k o
  rcases SeqState.nextPc_cases hown rfl k o with ⟨ht, hpc⟩ | ⟨ht, htgt⟩
  · obtain ⟨-, hdec, hnext⟩ := h.decode_follows hword
    rw [nextToExecute_of_flowsOn hcycle (hstraight ht), if_pos hdec, hnext, hpc]
  · obtain ⟨hpc, hsquash, -⟩ := hredirect _ ht htgt
    obtain ⟨he, hd⟩ := hsquash hfe
    rw [← hpc, nextToExecute, executeHoldsProgramWord, decodeHoldsProgramWord, he, hd]
    rfl

/-- An executing program word shows its row of the sequential view: its operands are the newest values, and its
result settles on top of the older instruction's. -/
theorem architectural_of_executes {s : State} (hpol : AllPolicies s) (hmirror : WritebackMirrors s)
    (h : PipelineShape s) (hword : executeHoldsProgramWord s = true) (hst : ¬ Stalled s) (k : Ctl)
    (o : Operands) : architectural (clockWith k o s) = (architectural s).runRow k o := by
  have hx : ExecutesNow s := ⟨((executeHoldsProgramWord_iff s).mp hword).1, hst⟩
  have hA : operandA s o = readReg (settledRegs s) o.ra := regOperand_eq_settled hpol hmirror hst o.ra
  have hB : operandB s k.bSel o = (architectural s).operandB k.bSel o := by
    cases k.bSel with
    | imm => rfl
    | reg => exact regOperand_eq_settled hpol hmirror hst o.rb
  have hfl := flagsOut_eq_getD s k.aluOp (readReg (settledRegs s) o.ra)
    ((architectural s).operandB k.bSel o)
  have hm := clockWith_m_of_executes hx k o
  have hdm := clockWith_dm k o s
  rw [effectiveCtl_executes hx] at hdm
  rw [hA, hB] at hm hdm
  rw [hfl] at hm
  have hxs : (clockWith k o s).x = settledRegs s := by rw [clockWith_eq]
  rw [architectural, nextToExecute_of_executes hpol.2.1 h hword hst, settledRegs, writeBackValue, hxs, hm, hdm]
  rfl

/-- Settles O47: a program word that executes is its row of the sequential view; every other clock is idle. -/
theorem clockIsSequentialOrStutters : Obligations.ClockIsSequentialOrStutters := by
  unfold Obligations.ClockIsSequentialOrStutters
  intro s t hpol h hmirror _ hstep
  refine ⟨fun ⟨hword, hst⟩ => ?_, fun hidle => ?_⟩
  · obtain ⟨hir, -, -⟩ := h.decode_follows hword
    have hown : (architectural s).pc = s.e.pc := if_pos hword
    rcases step_cases hstep with ⟨hfl, -⟩ | ⟨-, i, hdec, hexec⟩
    · rw [((executeHoldsProgramWord_iff s).mp hword).1] at hfl
      cases hfl
    · rw [exec_eq_clockWith] at hexec
      cases hexec
      rw [seqStep, hown, ← hir, hdec, architectural_of_executes hpol hmirror h hword hst,
        ← seqExec_eq_runRow]
  · obtain ⟨k, hk, rfl⟩ := lookup_of_step hstep
    exact architectural_of_idle h hidle hk _

/-! ### Runs -/

/-- What a run of a well-formed program from reset keeps. -/
structure RunInvariant (s : State) : Prop where
  policies : AllPolicies s
  words : WordsDefined s
  shape : PipelineShape s
  mirror : WritebackMirrors s
  select : s.m.wsel = .mem → s.m.rwe = true

theorem RunInvariant.of_reset {p : List Word} (hwf : programWf p = true) :
    RunInvariant (State.resetWith p true true true) := by
  obtain ⟨-, hwords, hmirror, hselect, hshape⟩ :=
    resetEstablishesTheInvariants.2 p State.reset _ (hostReset_of_wf hwf State.reset)
  exact ⟨⟨rfl, rfl, rfl⟩, hwords, hshape, hmirror, hselect⟩

/-- A step from a state of a run answers the run's next state. -/
theorem RunInvariant.step {s : State} (h : RunInvariant s) :
    ∃ t, Machine.step s = .next t ∧ t.program = s.program ∧ RunInvariant t := by
  obtain ⟨t, hstep, hwords⟩ := wellFormedProgramsNeverFault s h.words
  obtain ⟨-, hprog, hfwd, hflush, hstall, -⟩ := everyClockCountsOne s t hstep
  obtain ⟨hmirror, hselect, -⟩ := writebackMirrorsAfterEveryClock s t hstep
  have hpol : AllPolicies t := by
    rw [AllPolicies, hfwd, hflush, hstall]
    exact h.policies
  exact ⟨t, hstep, hprog, hpol, hwords, stepKeepsPipelineShape s t h.policies.2.1 h.shape hstep, hmirror,
    hselect⟩

theorem core_run_succ {s t : State} (k : Nat) (hstep : step s = .next t) :
    Sys2Proof.core.run (k + 1) s = Sys2Proof.core.run k t := by
  have hcore : Sys2Proof.core.step s = .next t := hstep
  simp only [Host.Core.run, hcore]

/-- A run from any state of the invariant, by induction on its clocks: each clock adds one sequential
instruction exactly when `executedWithin` counts it. -/
theorem RunInvariant.run {s : State} (h : RunInvariant s) (k : Nat) :
    ∃ u, Sys2Proof.core.run k s = Host.Outcome.next u ∧ executedWithin k s ≤ k ∧
      seqRun s.program (executedWithin k s) (architectural s) = .ok (architectural u) := by
  induction k generalizing s with
  | zero => exact ⟨s, rfl, le_rfl, rfl⟩
  | succ k ih =>
    obtain ⟨t, hstep, hprog, ht⟩ := h.step
    obtain ⟨u, hrun, hle, hseq⟩ := ih ht
    obtain ⟨hexec, hidle⟩ := clockIsSequentialOrStutters s t h.policies h.shape h.mirror h.select hstep
    rw [← stallCondition_false_iff] at hexec hidle
    refine ⟨u, (core_run_succ k hstep).trans hrun, ?_⟩
    rw [executedWithin_succ k hstep]
    split
    case isTrue hnow =>
      refine ⟨by omega, ?_⟩
      rw [Nat.add_comm, seqRun, hexec hnow, ← hprog]
      exact hseq
    case isFalse hnow =>
      refine ⟨by omega, ?_⟩
      rw [Nat.zero_add, ← hidle hnow, ← hprog]
      exact hseq

/-- Settles O48: the run of the reset state, which shows the sequential machine's reset state. -/
theorem runsAreSequential : Obligations.RunsAreSequential := by
  unfold Obligations.RunsAreSequential
  intro p hwf k
  exact (RunInvariant.of_reset hwf).run k

/-! ### Progress -/

/-- Within `n` clocks a program word executes. -/
def ExecutesWithin (n : Nat) (s : State) : Prop :=
  ∃ (j : Nat) (u : State), j ≤ n ∧ Sys2Proof.core.run j s = Host.Outcome.next u ∧
    executeHoldsProgramWord u = true ∧ ¬ Stalled u

theorem ExecutesWithin.now {s : State} (n : Nat) (hword : executeHoldsProgramWord s = true)
    (hst : ¬ Stalled s) : ExecutesWithin n s :=
  ⟨0, s, Nat.zero_le n, rfl, hword, hst⟩

theorem ExecutesWithin.of_step {n : Nat} {s t : State} (hstep : step s = .next t)
    (h : ExecutesWithin n t) : ExecutesWithin (n + 1) s := by
  obtain ⟨j, u, hj, hrun, hu⟩ := h
  exact ⟨j + 1, u, Nat.succ_le_succ hj, (core_run_succ j hstep).trans hrun, hu⟩

/-- The states from which progress is claimed. -/
structure CanProgress (s : State) : Prop where
  flush : s.flushEn = true
  words : WordsDefined s
  shape : PipelineShape s

/-- An idle clock leads to such a state again, with no stall; if none held it, Decode's word is now in Execute
and a fetched word in Decode. -/
theorem CanProgress.idle_step {s : State} (h : CanProgress s)
    (hidle : ¬ (executeHoldsProgramWord s = true ∧ ¬ Stalled s)) :
    ∃ t, step s = .next t ∧ CanProgress t ∧ ¬ Stalled t ∧ (¬ Stalled s →
      executeHoldsProgramWord t = decodeHoldsProgramWord s ∧ decodeHoldsProgramWord t = true) := by
  obtain ⟨t, hstep, hwords⟩ := wellFormedProgramsNeverFault s h.words
  obtain ⟨hcycle, -, -, hflush, -, -⟩ := everyClockCountsOne s t hstep
  have hshape := stepKeepsPipelineShape s t h.flush h.shape hstep
  obtain ⟨k, hk, ht⟩ := lookup_of_step hstep
  obtain ⟨-, hrwe, -, -, hflow⟩ := clockWith_of_inert (h.shape.effectiveCtl_idle hidle hk)
    (operandsOfWord s.e.ir)
  rw [← ht] at hrwe hflow
  exact ⟨t, hstep, ⟨hflush.trans h.flush, hwords, hshape⟩, not_stalled_of_rwe_eq_false hrwe,
    fun hst => (hflow hst).program_words hcycle⟩

/-- Without a stall a program word in Decode executes in the next clock at the latest. -/
theorem CanProgress.executesWithin_one {s : State} (h : CanProgress s) (hst : ¬ Stalled s)
    (hdec : decodeHoldsProgramWord s = true) : ExecutesWithin 1 s := by
  by_cases hword : executeHoldsProgramWord s = true
  · exact .now 1 hword hst
  · obtain ⟨t, hstep, -, hst', hmove⟩ := h.idle_step fun hnow => hword hnow.1
    exact .of_step hstep (.now 0 ((hmove hst).1.trans hdec) hst')

/-- Without a stall the fetched word is in Decode after one idle clock. -/
theorem CanProgress.executesWithin_two {s : State} (h : CanProgress s) (hst : ¬ Stalled s) :
    ExecutesWithin 2 s := by
  by_cases hword : executeHoldsProgramWord s = true
  · exact .now 2 hword hst
  · obtain ⟨t, hstep, ht, hst', hmove⟩ := h.idle_step fun hnow => hword hnow.1
    exact .of_step hstep (ht.executesWithin_one hst' (hmove hst).2)

/-- Settles O49: one clock for the stall and one for each of two bubbles, at the most. -/
theorem someInstructionExecutesWithinThreeClocks :
    Obligations.SomeInstructionExecutesWithinThreeClocks := by
  unfold Obligations.SomeInstructionExecutesWithinThreeClocks
  intro s hflush hwords hshape
  have h : CanProgress s := ⟨hflush, hwords, hshape⟩
  by_cases hst : Stalled s
  · obtain ⟨t, hstep, ht, hst', -⟩ := h.idle_step fun hnow => hnow.2 hst
    exact ExecutesWithin.of_step hstep (ht.executesWithin_two hst')
  · obtain ⟨j, u, hj, hu⟩ := h.executesWithin_two hst
    exact ⟨j, u, hj.trans (by decide), hu⟩

end Sys2Proof.Machine
end

section
/-! PROOFS. What a step never reads (spec/10_state.md sections 4 and 8): the display-only fields and the carry
flag. -/

namespace Sys2Proof.Machine

/-! ### Display-only fields -/

/-- A clock from the state with its display-only fields blanked gives the same but for them: none of its latches
reads one into a field that is not display only. -/
theorem eraseDisplay_clockWith (k : Ctl) (o : Operands) (s : State) :
    eraseDisplay (clockWith k o (eraseDisplay s)) = eraseDisplay (clockWith k o s) := by
  rw [clockWith_eq, clockWith_eq]
  rfl

theorem eraseOutcome_step (s : State) :
    eraseOutcome (step (eraseDisplay s)) = eraseOutcome (step s) := by
  have hlookup : lookupControl (eraseDisplay s) = lookupControl s := rfl
  cases hk : lookupControl s with
  | ok k =>
    rw [step_of_lookup hk, step_of_lookup (hlookup.trans hk)]
    exact congrArg Host.Outcome.next (eraseDisplay_clockWith k _ s)
  | error r => rw [step_of_lookup_error hk, step_of_lookup_error (hlookup.trans hk)]

/-- Settles O50: both states step like their common erasure. -/
theorem displayFieldsAreNeverRead : Obligations.DisplayFieldsAreNeverRead := by
  unfold Obligations.DisplayFieldsAreNeverRead
  intro s t hst
  rw [← eraseOutcome_step s, ← eraseOutcome_step t, hst]

/-! ### The carry flag -/

/-- The state with its carry flag set to `b`. -/
def withCarry (s : State) (b : Bool) : State := { s with m := { s.m with c := b } }

/-- The zero flag leaving Execute does not depend on the carry. -/
theorem flagsOut_withCarry_z (s : State) (c : Bool) (op : AluOp) (a b : Byte) :
    (flagsOut (withCarry s c) op a b).z = (flagsOut s op a b).z := by
  rw [flagsOut_eq_getD, flagsOut_eq_getD]
  cases aluFlags op a b <;> rfl

theorem clockWith_withCarry (k : Ctl) (o : Operands) (s : State) (b : Bool) :
    withCarry (clockWith k o (withCarry s b)) (clockWith k o s).m.c = clockWith k o s := by
  have hz : (evaluate k o (withCarry s b)).eFlags.z = (evaluate k o s).eFlags.z :=
    flagsOut_withCarry_z s b _ _ _
  rw [clockWith_eq, clockWith_eq, hz]
  rfl

/-- Settles O51: the carry reaches only the held carry; conditions read the zero flag. -/
theorem carryIsNeverRead : Obligations.CarryIsNeverRead := by
  unfold Obligations.CarryIsNeverRead
  intro s t b hstep
  obtain ⟨k, hk, rfl⟩ := lookup_of_step hstep
  have hk' : lookupControl (withCarry s b) = .ok k := hk
  exact ⟨_, step_of_lookup hk', clockWith_withCarry k _ s b⟩

end Sys2Proof.Machine
end

section
/-! PROOFS. The assembler (spec/30_encoding.md section 6): the words it makes, where pass 1 binds a label, and that
the canonical rendering of an instruction assembles to its word. -/

namespace Sys2Proof.Machine

/-! ### Every word comes from a row of the table -/

theorem matchDescriptor_eq_some {mnemonic : Token} {os : List OperandToken} {d : Descriptor}
    (h : matchDescriptor mnemonic os = some d) :
    d ∈ descriptors ∧ d.mnemonic.toList = mnemonic ∧ allSatisfy d.fields os = true := by
  rw [matchDescriptor] at h
  have hd := List.find?_some h
  rw [Bool.and_eq_true, beq_iff_eq] at hd
  exact ⟨List.mem_of_find?_eq_some h, hd⟩

theorem pass2Line_words (table : LabelTable) (line : Nat) (tokens : List Token) :
    ∀ w ∈ (pass2Line table line tokens).2, ∃ d ∈ descriptors, ∃ vs, w = encodeDescriptor d vs := by
  intro w hw
  cases tokens with
  | nil => cases hw
  | cons mnemonic operands =>
    simp only [pass2Line] at hw
    split at hw
    case isTrue => cases hw
    case isFalse =>
      split at hw
      case isTrue => cases hw
      case isFalse =>
        split at hw
        case h_1 d hd => exact ⟨d, (matchDescriptor_eq_some hd).1, _, List.mem_singleton.mp hw⟩
        case h_2 => cases hw

theorem pass2_words (table : LabelTable) (lines : List (Nat × List Token)) :
    ∀ w ∈ (pass2 table lines).2, ∃ d ∈ descriptors, ∃ vs, w = encodeDescriptor d vs := by
  induction lines with
  | nil => exact fun w hw => absurd hw (List.not_mem_nil)
  | cons l ls ih =>
    intro w hw
    rcases List.mem_append.mp hw with hhere | hrest
    · exact pass2Line_words table l.1 l.2 w hhere
    · exact ih w hrest

/-- An accepted text gives pass 2's words, with no diagnostic of either pass. -/
theorem assemble_eq_ok_iff (text : List Char) (p : List Word) :
    assemble text = .ok p ↔ (pass1 (sourceLines text)).diagnostics = [] ∧
      pass2 (pass1 (sourceLines text)).table (sourceLines text) = ([], p) := by
  simp only [assemble]
  split
  case isTrue h1 => simp [h1]
  case isFalse h1 =>
    have h1' := not_not.mp h1
    split
    case isTrue h2 => simp [Prod.ext_iff, h2]
    case isFalse h2 => simp [Prod.ext_iff, h1', not_not.mp h2]

theorem wordDefined_encodeDescriptor {d : Descriptor} (hd : d ∈ descriptors) (vs : List Int) :
    wordDefined (encodeDescriptor d vs) = true := by
  rw [wordDefined_iff, toNat_opcodeOf_encodeDescriptor hd]
  exact opcode_lt d hd

/-- Settles O52: pass 2 builds its words from rows of the table, whose opcodes are below 27. -/
theorem assembledWordsAreDefined : Obligations.AssembledWordsAreDefined := by
  unfold Obligations.AssembledWordsAreDefined
  intro text p h w hw
  obtain ⟨-, hp⟩ := (assemble_eq_ok_iff text p).mp h
  obtain ⟨d, hd, vs, rfl⟩ := pass2_words _ _ w (by rw [hp]; exact hw)
  exact wordDefined_encodeDescriptor hd vs

/-! ### Where pass 1 binds a label -/

/-- Pass 1 from what an earlier part of the source gave. -/
def pass1From (p : Pass1) (lines : List (Nat × List Token)) : Pass1 :=
  lines.foldl (fun p l => pass1Line p l.1 l.2) p

theorem pass1_append_cons (before after : List (Nat × List Token)) (line : Nat) (tokens : List Token) :
    pass1 (before ++ (line, tokens) :: after) =
      pass1From (pass1Line (pass1 before) line tokens) after := by
  rw [pass1, List.foldl_append]
  rfl

theorem pass1From_counter (p : Pass1) (lines : List (Nat × List Token)) :
    (pass1From p lines).counter = p.counter + instructionLines lines := by
  induction lines generalizing p with
  | nil => rfl
  | cons l ls ih =>
    have hstep : pass1From p (l :: ls) = pass1From (pass1Line p l.1 l.2) ls := rfl
    rw [hstep, ih, pass1Line_counter, instructionLines, instructionLines, List.countP_cons]
    cases l.2.all isLabelToken <;> grind

theorem pass1_counter (lines : List (Nat × List Token)) :
    (pass1 lines).counter = instructionLines lines :=
  (pass1From_counter ⟨0, [], []⟩ lines).trans (Nat.zero_add _)

/-- Later lines take neither a diagnostic nor a table entry away. -/
theorem pass1From_extends (p : Pass1) (lines : List (Nat × List Token)) :
    p.diagnostics <+: (pass1From p lines).diagnostics ∧ p.table <+: (pass1From p lines).table := by
  induction lines generalizing p with
  | nil => exact ⟨List.prefix_rfl, List.prefix_rfl⟩
  | cons l ls ih =>
    obtain ⟨hdiag, htable⟩ := ih (pass1Line p l.1 l.2)
    obtain ⟨moreDiag, hd⟩ := pass1Line_diagnostics p l.1 l.2
    obtain ⟨moreTable, ht⟩ := pass1Line_table p l.1 l.2
    exact ⟨(hd ▸ List.prefix_append _ _).trans hdiag, (ht ▸ List.prefix_append _ _).trans htable⟩

/-- A label alone on its line with no problem has a free name (R112). -/
theorem findLabel_of_no_problem {table : LabelTable} {t : Token}
    (h : headLabelProblem table t [] = none) : findLabel table (labelName t) = none := by
  rw [headLabelProblem, if_neg (not_not.mpr rfl)] at h
  split at h
  case isTrue => cases h
  case isFalse =>
    split at h
    case isTrue => cases h
    case isFalse hfree => simpa using hfree

/-- A label alone on its line, without a diagnostic: its name was free and is bound to the current address. -/
theorem pass1Line_label {p : Pass1} {line : Nat} {t : Token} (ht : isLabelToken t = true)
    (hdiag : (pass1Line p line [t]).diagnostics = []) :
    findLabel p.table (labelName t) = none ∧
      (pass1Line p line [t]).table = p.table ++ [(labelName t, labelAddress p.counter)] := by
  simp only [pass1Line, ht, if_true] at hdiag ⊢
  split at hdiag
  case h_1 => simp at hdiag
  case h_2 hok =>
    exact ⟨findLabel_of_no_problem hok, rfl⟩

/-- The first entry with a name decides, whatever entries follow. -/
theorem findLabel_of_prefix {table more : LabelTable} {name : List Char} {a : Addr}
    (hfree : findLabel table name = none) (hpre : table ++ [(name, a)] <+: more) :
    findLabel more name = some a := by
  obtain ⟨rest, rfl⟩ := hpre
  have hnone : table.find? (fun entry => entry.1 == name) = none := by
    simpa only [findLabel, Option.map_eq_none_iff] using hfree
  simp [findLabel, List.find?_append, hnone]

/-- Settles O53: the label's line binds it at the counter, which counts the instruction lines before it, and no
later line unbinds it. -/
theorem labelIsBoundAtTheNextInstruction : Obligations.LabelIsBoundAtTheNextInstruction := by
  unfold Obligations.LabelIsBoundAtTheNextInstruction
  refine fun before after line t ht hdiag => ⟨?_, fun hlt => labelAddress_toNat hlt⟩
  rw [pass1_append_cons] at hdiag ⊢
  obtain ⟨hdiags, htable⟩ := pass1From_extends (pass1Line (pass1 before) line [t]) after
  rw [hdiag, List.prefix_nil] at hdiags
  obtain ⟨hfree, hbinds⟩ := pass1Line_label ht hdiags
  rw [hbinds, pass1_counter] at htable
  exact findLabel_of_prefix hfree htable

/-! ### Digits -/

theorem digitsFrom_append (digit : Char → Option Nat) (base acc : Nat) (cs : List Char) (c : Char) :
    digitsFrom digit base acc (cs ++ [c]) =
      (digitsFrom digit base acc cs).bind fun n => (digit c).map fun d => n * base + d := by
  induction cs generalizing acc with
  | nil =>
    simp only [List.nil_append, digitsFrom, Option.bind_some]
    cases digit c <;> rfl
  | cons x xs ih =>
    simp only [List.cons_append, digitsFrom]
    cases digit x with
    | none => rfl
    | some d => exact ih _

theorem hexDigit_digitChar {n : Nat} (h : n < 16) : hexDigit (digitChar n) = some n :=
  (by decide : ∀ n < 16, hexDigit (digitChar n) = some n) n h

/-- The `k` hexadecimal digits of a number spell it mod `16 ^ k`. -/
theorem digitsFrom_renderHex (k n : Nat) :
    digitsFrom hexDigit 16 0 (renderHex k n) = some (n % 16 ^ k) := by
  induction k generalizing n with
  | zero => simp [renderHex, digitsFrom, Nat.mod_one]
  | succ k ih =>
    have hmod : n / 16 % 16 ^ k * 16 + n % 16 = n % 16 ^ (k + 1) := by
      rw [Nat.pow_succ', Nat.mod_mul, Nat.mul_comm, Nat.add_comm]
    rw [renderHex, digitsFrom_append, ih, hexDigit_digitChar (Nat.mod_lt _ (by decide)),
      Option.bind_some, Option.map_some, hmod]

theorem number_renderHex {k n : Nat} (h : n < 16 ^ (k + 1)) :
    number hexDigit 16 (renderHex (k + 1) n) = some n := by
  have hne : (renderHex (k + 1) n).isEmpty = false := by simp [renderHex]
  rw [number, hne, if_neg Bool.false_ne_true, digitsFrom_renderHex, Nat.mod_eq_of_lt h]

theorem number_renderDec {n : Nat} (h : n < 16) : number decDigit 10 (renderDec n) = some n :=
  (by decide : ∀ n < 16, number decDigit 10 (renderDec n) = some n) n h

/-! ### Rendered operands are tokens -/

/-- A character that ends neither a token nor a line and marks no label. -/
def plainChar (c : Char) : Bool := !c.isWhitespace && c != ';' && c != ':'

theorem plainChar_iff (c : Char) :
    plainChar c = true ↔ c.isWhitespace = false ∧ c ≠ ';' ∧ c ≠ ':' := by
  simp [plainChar, and_assoc]

/-- A token of the rendering: some plain characters. -/
def PlainToken (t : Token) : Prop := t ≠ [] ∧ ∀ c ∈ t, plainChar c = true

theorem plainChar_digitChar {n : Nat} (h : n < 16) : plainChar (digitChar n) = true :=
  (by decide : ∀ n < 16, plainChar (digitChar n) = true) n h

theorem plainChar_renderHex (k n : Nat) : ∀ c ∈ renderHex k n, plainChar c = true := by
  induction k generalizing n with
  | zero => exact fun c hc => absurd hc List.not_mem_nil
  | succ k ih =>
    intro c hc
    rcases List.mem_append.mp hc with hc | hc
    · exact ih _ c hc
    · rw [List.mem_singleton.mp hc]
      exact plainChar_digitChar (Nat.mod_lt _ (by decide))

theorem plainChar_renderDec {n : Nat} (h : n < 16) : ∀ c ∈ renderDec n, plainChar c = true := by
  have htens := plainChar_digitChar (show n / 10 < 16 by omega)
  have hones := plainChar_digitChar (show n % 10 < 16 by omega)
  rw [renderDec]
  split
  · simpa using plainChar_digitChar h
  · simpa using ⟨htens, hones⟩

theorem PlainToken.cons {c : Char} {cs : Token} (hc : plainChar c = true)
    (hcs : ∀ c ∈ cs, plainChar c = true) : PlainToken (c :: cs) :=
  ⟨List.cons_ne_nil c cs, List.forall_mem_cons.mpr ⟨hc, hcs⟩⟩

/-- What an in-range operand is classified as: a register by its number, anything else by its value. -/
def operandToken (k : OperandKind) (v : Int) : OperandToken :=
  match k with
  | .register => .register v.toNat
  | .immediate => .value v
  | .unsignedAddress => .value v
  | .signedAddress => .value v

theorem classify_hex (table : LabelTable) {k n : Nat} (h : n < 16 ^ (k + 1)) :
    classify table ('x' :: renderHex (k + 1) n) = some (.value n) := by
  have hreg (cs : List Char) : registerToken ('x' :: cs) = none := rfl
  have hnum (cs : List Char) : numericToken ('x' :: cs) =
      (number hexDigit 16 cs).map (fun n => OperandToken.value (n : Int)) := rfl
  rw [classify, hreg, hnum, number_renderHex h]
  rfl

theorem classify_negative_hex (table : LabelTable) {k n : Nat} (h : n < 16 ^ (k + 1)) :
    classify table ('-' :: 'x' :: renderHex (k + 1) n) = some (.value (-n)) := by
  have hreg (cs : List Char) : registerToken ('-' :: 'x' :: cs) = none := rfl
  have hnum (cs : List Char) : numericToken ('-' :: 'x' :: cs) =
      (number hexDigit 16 cs).map (fun n => OperandToken.value (-(n : Int))) := rfl
  rw [classify, hreg, hnum, number_renderHex h]
  rfl

theorem classify_register (table : LabelTable) {n : Nat} (h : n < 16) :
    classify table ('r' :: renderDec n) = some (.register n) := by
  have hreg (cs : List Char) : registerToken ('r' :: cs) =
      (number decDigit 10 cs).map OperandToken.register := rfl
  rw [classify, hreg, number_renderDec h, Option.map_some]

section
variable {k : OperandKind} {v : Int} (h : k.inRange v = true)
include h

/-- An in-range operand renders to one token, which classifies back to it. -/
theorem renderOperand_spec (table : LabelTable) :
    PlainToken (renderOperand k v) ∧ classify table (renderOperand k v) = some (operandToken k v) := by
  cases k with
  | register =>
    obtain ⟨r, rfl⟩ := exists_regIx h
    exact ⟨.cons rfl (plainChar_renderDec r.isLt), classify_register table r.isLt⟩
  | immediate =>
    obtain ⟨b, rfl⟩ := exists_byte h
    exact ⟨.cons rfl (plainChar_renderHex 2 _), classify_hex table b.isLt⟩
  | unsignedAddress =>
    obtain ⟨a, rfl⟩ := exists_addr h
    exact ⟨.cons rfl (plainChar_renderHex 3 _), classify_hex table a.isLt⟩
  | signedAddress =>
    simp only [OperandKind.inRange, signedAddressOk, Bool.and_eq_true, decide_eq_true_eq] at h
    obtain ⟨hlo, hhi⟩ := h
    rw [renderOperand]
    split
    case isTrue hneg =>
      obtain ⟨n, rfl⟩ : ∃ n : Nat, v = -n := ⟨(-v).toNat, by omega⟩
      rw [Int.neg_neg, Int.toNat_natCast]
      exact ⟨.cons rfl (List.forall_mem_cons.mpr ⟨rfl, plainChar_renderHex 3 n⟩),
        classify_negative_hex table (by omega)⟩
    case isFalse hpos =>
      obtain ⟨n, rfl⟩ : ∃ n : Nat, v = n := ⟨v.toNat, by omega⟩
      exact ⟨.cons rfl (plainChar_renderHex 3 n), classify_hex table (by omega)⟩

/-- The classified operand satisfies its own kind and stands for its value. -/
theorem operandToken_spec : satisfies k (operandToken k v) = true ∧ (operandToken k v).toInt = v := by
  cases k with
  | register =>
    obtain ⟨r, rfl⟩ := exists_regIx h
    exact ⟨h, rfl⟩
  | immediate | unsignedAddress | signedAddress => exact ⟨h, rfl⟩

end

/-! ### The rendered line's tokens -/

/-- The tokens of the rendered operands. -/
def operandTexts : List OperandField → List Int → List Token
  | f :: fs, v :: vs => renderOperand f.kind v :: operandTexts fs vs
  | _, _ => []

/-- What the rendered operands are classified as. -/
def operandTokens : List OperandField → List Int → List OperandToken
  | f :: fs, v :: vs => operandToken f.kind v :: operandTokens fs vs
  | _, _ => []

/-- In-range operands render to tokens that classify back, satisfy their fields and stand for the values. -/
theorem operandTexts_spec {fs : List OperandField} {vs : List Int} (h : operandsInRange fs vs = true)
    (table : LabelTable) :
    (∀ t ∈ operandTexts fs vs, PlainToken t) ∧
      (operandTexts fs vs).map (classify table) = (operandTokens fs vs).map some ∧
      allSatisfy fs (operandTokens fs vs) = true ∧
      (operandTokens fs vs).map OperandToken.toInt = vs := by
  induction fs generalizing vs with
  | nil =>
    match vs with
    | [] => exact ⟨fun t ht => absurd ht List.not_mem_nil, rfl, rfl, rfl⟩
  | cons f fs ih =>
    match vs with
    | [] => cases h
    | v :: vs =>
      obtain ⟨hv, hvs⟩ : f.kind.inRange v = true ∧ operandsInRange fs vs = true := by
        simpa [operandsInRange] using h
      obtain ⟨hplain, hclass⟩ := renderOperand_spec hv table
      obtain ⟨hsat, hint⟩ := operandToken_spec hv
      obtain ⟨hplains, hclasses, hsats, hints⟩ := ih hvs
      exact ⟨List.forall_mem_cons.mpr ⟨hplain, hplains⟩,
        by simp only [operandTexts, operandTokens, List.map_cons, hclass, hclasses],
        by simp only [operandTokens, allSatisfy, hsat, hsats, Bool.and_self],
        by simp only [operandTokens, List.map_cons, hint, hints]⟩

/-- Tokens, each after a space. -/
def spaced (ts : List Token) : List Char := ts.flatMap (fun t => ' ' :: t)

theorem spaced_cons (t : Token) (ts : List Token) : spaced (t :: ts) = ' ' :: (t ++ spaced ts) := rfl

theorem renderOperands_eq_spaced (fs : List OperandField) (vs : List Int) :
    renderOperands fs vs = spaced (operandTexts fs vs) := by
  induction fs generalizing vs with
  | nil => rfl
  | cons f fs ih =>
    cases vs with
    | nil => rfl
    | cons v vs => rw [renderOperands, operandTexts, spaced_cons, ih, List.cons_append]

/-- A token without whitespace is read whole. -/
theorem tokensFrom_append (t rest cur : List Char) (ht : ∀ c ∈ t, plainChar c = true) :
    tokensFrom (t ++ rest) cur = tokensFrom rest (t.reverse ++ cur) := by
  induction t generalizing cur with
  | nil => rfl
  | cons c cs ih =>
    obtain ⟨hc, hcs⟩ := List.forall_mem_cons.mp ht
    rw [List.cons_append, tokensFrom, ((plainChar_iff c).mp hc).1, if_neg Bool.false_ne_true, ih _ hcs,
      List.reverse_cons, List.append_assoc, List.singleton_append]

/-- Each space ends the token before it. -/
theorem tokensFrom_spaced {ts : List Token} (h : ∀ t ∈ ts, PlainToken t) {cur : Token} (hcur : cur ≠ []) :
    tokensFrom (spaced ts) cur = cur.reverse :: ts := by
  have hcur' : cur.isEmpty = false := by simpa using hcur
  induction ts generalizing cur with
  | nil =>
    have hend : spaced [] = [] := rfl
    rw [hend, tokensFrom, hcur', if_neg Bool.false_ne_true]
  | cons t ts ih =>
    obtain ⟨⟨hne, hplain⟩, hts⟩ := List.forall_mem_cons.mp h
    have hspace : (' ' : Char).isWhitespace = true := rfl
    have hne' : t.reverse ≠ [] := by simpa using hne
    rw [spaced_cons, tokensFrom, hspace, if_pos rfl, hcur', if_neg Bool.false_ne_true,
      tokensFrom_append _ _ _ hplain, List.append_nil, ih hts hne' (by simpa using hne'),
      List.reverse_reverse]

theorem splitLines_of_one_line {cs : List Char} (h : ∀ c ∈ cs, c ≠ '\n') : splitLines cs = [cs] := by
  induction cs with
  | nil => rfl
  | cons c cs ih =>
    obtain ⟨hc, hcs⟩ := List.forall_mem_cons.mp h
    rw [splitLines, if_neg hc, ih hcs]

/-- Neither a plain character nor a space ends a line or begins a comment. -/
theorem chars_of_tokens {t : Token} {ts : List Token} (ht : PlainToken t) (hts : ∀ t ∈ ts, PlainToken t) :
    ∀ c ∈ t ++ spaced ts, c ≠ '\n' ∧ c ≠ ';' := by
  have hplain : ∀ c, plainChar c = true → c ≠ '\n' ∧ c ≠ ';' := by
    intro c hc
    obtain ⟨hspace, hcomment, -⟩ := (plainChar_iff c).mp hc
    refine ⟨?_, hcomment⟩
    rintro rfl
    cases hspace
  intro c hc
  rcases List.mem_append.mp hc with hc | hc
  · exact hplain c (ht.2 c hc)
  · obtain ⟨u, hu, hc⟩ := List.mem_flatMap.mp hc
    rcases List.mem_cons.mp hc with rfl | hc
    · decide
    · exact hplain c ((hts u hu).2 c hc)

/-- A line of plain tokens is one source line of these tokens, numbered 1. -/
theorem sourceLines_of_tokens {t : Token} {ts : List Token} (ht : PlainToken t)
    (hts : ∀ t ∈ ts, PlainToken t) : sourceLines (t ++ spaced ts) = [(1, t :: ts)] := by
  have hchars := chars_of_tokens ht hts
  have hstrip : stripComment (t ++ spaced ts) = t ++ spaced ts :=
    List.takeWhile_eq_self_iff.mpr fun c hc => decide_eq_true (hchars c hc).2
  have htokens : lineTokens (t ++ spaced ts) = t :: ts := by
    have hne : t.reverse ≠ [] := by simpa using ht.1
    rw [lineTokens, hstrip, tokensFrom_append _ _ _ ht.2, List.append_nil, tokensFrom_spaced hts hne,
      List.reverse_reverse]
  rw [sourceLines, splitLines_of_one_line fun c hc => (hchars c hc).1]
  simp [numberLines, htokens]

/-! ### The two passes over a rendered line -/

theorem isLabelToken_of_plain {t : Token} (h : PlainToken t) : isLabelToken t = false := by
  rw [isLabelToken, decide_eq_false_iff_not]
  intro hlast
  exact ((plainChar_iff ':').mp (h.2 _ (List.mem_of_getLast? hlast))).2.2 rfl

theorem pass1_of_plain {t : Token} {ts : List Token} (ht : PlainToken t) (hts : ∀ t ∈ ts, PlainToken t) :
    (pass1 [(1, t :: ts)]).diagnostics = [] ∧ (pass1 [(1, t :: ts)]).table = [] := by
  have hlabels : ts.filter isLabelToken = [] :=
    List.filter_eq_nil_iff.mpr fun t ht => by simp [isLabelToken_of_plain (hts t ht)]
  simp [pass1, pass1Line, isLabelToken_of_plain ht, hlabels]

/-- A line whose operands classify and match a row gives the row's word. -/
theorem pass2Line_of_match {table : LabelTable} {line : Nat} {mnemonic : Token} {operands : List Token}
    {os : List OperandToken} {d : Descriptor} (hlabel : isLabelToken mnemonic = false)
    (hclass : operands.map (classify table) = os.map some) (hd : matchDescriptor mnemonic os = some d) :
    pass2Line table line (mnemonic :: operands) =
      ([], [encodeDescriptor d (os.map OperandToken.toInt)]) := by
  have hresolved : (os.map some).filter Option.isNone = [] := by simp
  have hos : (os.map some).filterMap id = os := by simp
  simp only [pass2Line, hlabel, hclass, hresolved, hos, hd, Bool.false_eq_true, if_false, ne_eq,
    not_true_eq_false]

/-- Whether an operand token is a register. -/
def OperandToken.isRegister : OperandToken → Bool
  | .register _ => true
  | .value _ => false

/-- Operands satisfy only fields with registers at the same places. -/
theorem registers_of_allSatisfy {fs : List OperandField} {os : List OperandToken}
    (h : allSatisfy fs os = true) :
    fs.map (fun f => decide (f.kind = .register)) = os.map OperandToken.isRegister := by
  induction fs generalizing os with
  | nil =>
    match os with
    | [] => rfl
  | cons f fs ih =>
    match os with
    | [] => cases h
    | o :: os =>
      obtain ⟨ho, hos⟩ : satisfies f.kind o = true ∧ allSatisfy fs os = true := by
        simpa [allSatisfy] using h
      have hreg : decide (f.kind = .register) = o.isRegister := by
        cases o <;> simp_all [satisfies, OperandToken.isRegister]
      rw [List.map_cons, List.map_cons, hreg, ih hos]

/-- The mnemonic and the places of the registers single out a row of the table (R101, R114). -/
theorem descriptor_unique : ∀ d ∈ descriptors, ∀ d' ∈ descriptors,
    d.mnemonic.toList = d'.mnemonic.toList →
    d.fields.map (fun f => decide (f.kind = .register)) =
      d'.fields.map (fun f => decide (f.kind = .register)) → d = d' := by
  decide

theorem matchDescriptor_self {d : Descriptor} (hd : d ∈ descriptors) {os : List OperandToken}
    (hos : allSatisfy d.fields os = true) : matchDescriptor d.mnemonic.toList os = some d := by
  cases hm : matchDescriptor d.mnemonic.toList os with
  | some d' =>
    obtain ⟨hd', hname, hos'⟩ := matchDescriptor_eq_some hm
    rw [descriptor_unique d' hd' d hd hname
      ((registers_of_allSatisfy hos').trans (registers_of_allSatisfy hos).symm)]
  | none =>
    rw [matchDescriptor, List.find?_eq_none] at hm
    exact absurd (by simp [hos]) (hm d hd)

theorem mnemonic_plain : ∀ d ∈ descriptors, PlainToken d.mnemonic.toList := by
  have hplain : ∀ d ∈ descriptors,
      d.mnemonic.toList ≠ [] ∧ d.mnemonic.toList.all plainChar = true := by decide
  exact fun d hd => ⟨(hplain d hd).1, List.all_eq_true.mp (hplain d hd).2⟩

/-- A row's mnemonic with its rendered operands assembles to the word the row builds. -/
theorem assemble_rendered {d : Descriptor} (hd : d ∈ descriptors) {vs : List Int}
    (hvs : operandsInRange d.fields vs = true) :
    assemble (d.mnemonic.toList ++ renderOperands d.fields vs) = .ok [encodeDescriptor d vs] := by
  obtain ⟨hplain, hclass, hsat, hint⟩ := operandTexts_spec hvs []
  have hmn := mnemonic_plain d hd
  obtain ⟨hdiag, htable⟩ := pass1_of_plain hmn hplain
  rw [assemble_eq_ok_iff, renderOperands_eq_spaced, sourceLines_of_tokens hmn hplain, htable]
  refine ⟨hdiag, ?_⟩
  rw [pass2, pass2Line_of_match (isLabelToken_of_plain hmn) hclass (matchDescriptor_self hd hsat), hint]
  rfl

theorem inRange_regIx (r : RegIx) : OperandKind.register.inRange (r.toNat : Int) = true := by
  have := r.isLt
  simp only [OperandKind.inRange, Bool.and_eq_true, decide_eq_true_eq]
  omega

theorem inRange_byte (b : Byte) : OperandKind.immediate.inRange (b.toNat : Int) = true := by
  have := b.isLt
  simp only [OperandKind.inRange, Bool.and_eq_true, decide_eq_true_eq]
  omega

theorem inRange_addr (a : Addr) : OperandKind.unsignedAddress.inRange (a.toNat : Int) = true := by
  have := a.isLt
  simp only [OperandKind.inRange, Bool.and_eq_true, decide_eq_true_eq]
  omega

/-- A well-formed instruction's operands are in the ranges of its row's fields. -/
theorem operandsInRange_of_wf {i : Instr} (hwf : i.wf = true) {d : Descriptor}
    (hrow : descriptors[i.opcode]? = some d) : operandsInRange d.fields i.operands = true := by
  cases i with
  | nop =>
    cases hrow
    rfl
  | movRR rd rs | addRR rd rs | subRR rd rs | andRR rd rs | orRR rd rs | xorRR rd rs | shlRR rd rs
  | sarRR rd rs | ldRR rd rs | stRR rd rs =>
    cases hrow
    simp [operandsInRange, Instr.operands, inRange_regIx]
  | movRI rd imm | addRI rd imm | subRI rd imm | andRI rd imm | orRI rd imm | xorRI rd imm
  | shlRI rd imm | sarRI rd imm | ldRI rd imm | stRI rd imm =>
    cases hrow
    simp [operandsInRange, Instr.operands, inRange_regIx, inRange_byte]
  | jmp a | jz a | jnz a =>
    cases hrow
    simp [operandsInRange, Instr.operands, inRange_addr]
  | br off | bz off | bnz off =>
    cases hrow
    exact Bool.and_eq_true_iff.mpr ⟨hwf, rfl⟩

/-- Settles O54: the rendering is the row's mnemonic and operands, which assemble to the word the row builds, and
that is the instruction's word. -/
theorem renderingAssemblesBack : Obligations.RenderingAssemblesBack := by
  unfold Obligations.RenderingAssemblesBack
  intro i hwf
  obtain ⟨d, hrow, -, henc⟩ := encode_eq_encodeDescriptor i
  rw [render, hrow, henc]
  exact assemble_rendered (List.mem_of_getElem? hrow) (operandsInRange_of_wf hwf hrow)

end Sys2Proof.Machine
end
